-- ==== Sys2Proof/Word.lean ====
section
/-! DEFINITION. The word types of rs_chip_8 CORE (00_scope.md R6, R9): every value is unsigned. -/

namespace Sys2Proof

/-- A memory cell, a general register, a timer: 8 bits (`XLEN`, R6). -/
abbrev Byte := BitVec 8

/-- An instruction word, `I`, `PC`, a stack slot: 16 bits (`ILEN`, `I_BITS`, `PC_BITS`, `SLOT_BITS`, R6). -/
abbrev Word := BitVec 16

/-- The 12-bit address field `nnn` of an instruction (30_encoding.md R82). -/
abbrev Addr12 := BitVec 12

/-- The index of a general register, 0 to 15 (10_state.md R20). -/
abbrev Reg := Fin 16

/-- The number of a key, 0 to 15 (10_state.md R28). -/
abbrev Key := Fin 16

end Sys2Proof
end

