-- ==== Sys2Proof/Decode.lean ====
section
/-! DEFINITION. The decoder, written from the selection algorithm of 30_encoding.md R86; the encoder, written from the
patterns of R85; and R85's table of masks and matches as data, against which Laws/Decode.lean holds both. -/

namespace Sys2Proof

/-- `w[hi:lo]` as an unsigned number (00_scope.md R8). -/
def slice (w : Word) (hi lo : Nat) : Nat :=
  w.toNat / 2 ^ lo % 2 ^ (hi + 1 - lo)

/-- The `op` field, bits 15:12 (R82). -/
def opField (w : Word) : Nat := slice w 15 12

/-- The `x` field, bits 11:8 (R82). -/
def xField (w : Word) : Reg := ⟨slice w 11 8, Nat.mod_lt _ (by decide)⟩

/-- The `y` field, bits 7:4 (R82). -/
def yField (w : Word) : Reg := ⟨slice w 7 4, Nat.mod_lt _ (by decide)⟩

/-- The `n` field, bits 3:0 (R82). -/
def nField (w : Word) : Nat := slice w 3 0

/-- The `kk` field, bits 7:0, as the sub-opcode of families E and F (R82). -/
def kkField (w : Word) : Nat := slice w 7 0

/-- The `kk` field as an immediate operand (R82, R84). -/
def kkImm (w : Word) : Byte := BitVec.ofNat 8 (slice w 7 0)

/-- The `nnn` field, bits 11:0, as an address operand (R82, R84). -/
def nnnField (w : Word) : Addr12 := BitVec.ofNat 12 (slice w 11 0)

/-- Why the decoder answers no instruction. -/
inductive Reject
  /-- Fewer than the two bytes of an instruction word (R82). -/
  | truncated
  /-- The word is none of the 34 patterns (R87); the step then raises InvalidOpcode (60_exceptions.md R202). -/
  | invalidOpcode (w : Word)
deriving DecidableEq, Repr

/-- The `else` arms of R86. -/
def invalid (w : Word) : Except Reject Instr := .error (.invalidOpcode w)

/-- Family 0 selects on the whole address field (R86). -/
def decodeFamily0 (w : Word) : Except Reject Instr :=
  match slice w 11 0 with
  | 0x0E0 => .ok .cls
  | 0x0EE => .ok .ret
  | _ => invalid w

/-- Family 5 requires a trailing nibble of 0 (R86, D2). -/
def decodeFamily5 (w : Word) : Except Reject Instr :=
  match nField w with
  | 0 => .ok (.seReg (xField w) (yField w))
  | _ => invalid w

/-- Family 8 selects on the trailing nibble (R86). -/
def decodeFamily8 (w : Word) : Except Reject Instr :=
  match nField w with
  | 0x0 => .ok (.ldReg (xField w) (yField w))
  | 0x1 => .ok (.orReg (xField w) (yField w))
  | 0x2 => .ok (.andReg (xField w) (yField w))
  | 0x3 => .ok (.xorReg (xField w) (yField w))
  | 0x4 => .ok (.addReg (xField w) (yField w))
  | 0x5 => .ok (.subReg (xField w) (yField w))
  | 0x6 => .ok (.shr (xField w) (yField w))
  | 0x7 => .ok (.subn (xField w) (yField w))
  | 0xE => .ok (.shl (xField w) (yField w))
  | _ => invalid w

/-- Family 9 requires a trailing nibble of 0 (R86, D2). -/
def decodeFamily9 (w : Word) : Except Reject Instr :=
  match nField w with
  | 0 => .ok (.sneReg (xField w) (yField w))
  | _ => invalid w

/-- Family E selects on the low byte (R86). -/
def decodeFamilyE (w : Word) : Except Reject Instr :=
  match kkField w with
  | 0x9E => .ok (.skp (xField w))
  | 0xA1 => .ok (.sknp (xField w))
  | _ => invalid w

/-- Family F selects on the low byte (R86). -/
def decodeFamilyF (w : Word) : Except Reject Instr :=
  match kkField w with
  | 0x07 => .ok (.ldVxDT (xField w))
  | 0x0A => .ok (.ldVxK (xField w))
  | 0x15 => .ok (.ldDTVx (xField w))
  | 0x18 => .ok (.ldSTVx (xField w))
  | 0x1E => .ok (.addI (xField w))
  | 0x29 => .ok (.ldF (xField w))
  | 0x33 => .ok (.ldB (xField w))
  | 0x55 => .ok (.storeRegs (xField w))
  | 0x65 => .ok (.loadRegs (xField w))
  | _ => invalid w

/-- R86: which instruction a word selects. Total; the last arm is never reached, since `opField` is below 16. -/
def decodeWord (w : Word) : Except Reject Instr :=
  match opField w with
  | 0x0 => decodeFamily0 w
  | 0x1 => .ok (.jp (nnnField w))
  | 0x2 => .ok (.call (nnnField w))
  | 0x3 => .ok (.seImm (xField w) (kkImm w))
  | 0x4 => .ok (.sneImm (xField w) (kkImm w))
  | 0x5 => decodeFamily5 w
  | 0x6 => .ok (.ldImm (xField w) (kkImm w))
  | 0x7 => .ok (.addImm (xField w) (kkImm w))
  | 0x8 => decodeFamily8 w
  | 0x9 => decodeFamily9 w
  | 0xA => .ok (.ldI (nnnField w))
  | 0xB => .ok (.jpV0 (nnnField w))
  | 0xC => .ok (.rnd (xField w) (kkImm w))
  | 0xD => .ok (.drw (xField w) (yField w) (nField w))
  | 0xE => decodeFamilyE w
  | 0xF => decodeFamilyF w
  | _ => invalid w

/-- The byte at the lower address holds bits 15:8 of the word (20_memory.md R54). -/
def wordOfBytes (hi lo : Byte) : Word := BitVec.ofNat 16 (hi.toNat * 256 + lo.toNat)

/-- Bits 15:8 of a word: the byte at the lower address (R54). -/
def hiByte (w : Word) : Byte := BitVec.ofNat 8 (w.toNat / 256)

/-- Bits 7:0 of a word: the byte at the higher address (R54). -/
def loByte (w : Word) : Byte := BitVec.ofNat 8 w.toNat

/-- The decoder on bytes: one instruction is two bytes, big-endian (R82, R54); answers the rest of the bytes too. -/
def decode : List Byte → Except Reject (Instr × List Byte)
  | hi :: lo :: rest => (decodeWord (wordOfBytes hi lo)).map (·, rest)
  | [_] => .error .truncated
  | [] => .error .truncated

/-- The host's question: the instruction the decoder reads from a table word of `nbits` bits, laid out in memory as
the hardware stores it (big-endian, R54). Every instruction is one 16-bit word (R82), so the table's numbering and the
word's own agree. -/
def decodeTableWord (nbits w : Nat) : Option Instr :=
  let word : Word := BitVec.ofNat 16 (w % 2 ^ nbits)
  match decode [hiByte word, loByte word] with
  | .ok (i, _) => some i
  | .error _ => none

/-- Format `NNN`: `Tnnn` (R83). -/
def encNNN (op : Nat) (nnn : Addr12) : Word := BitVec.ofNat 16 (op * 4096 + nnn.toNat)

/-- Format `XKK`: `Txkk` (R83). -/
def encXKK (op : Nat) (x : Reg) (kk : Byte) : Word := BitVec.ofNat 16 (op * 4096 + x.val * 256 + kk.toNat)

/-- Formats `XY` and `XYN`: `TxyS`, `Dxyn` (R83). -/
def encXYN (op : Nat) (x y : Reg) (n : Nat) : Word := BitVec.ofNat 16 (op * 4096 + x.val * 256 + y.val * 16 + n)

/-- Format `X`: `TxSS` (R83). -/
def encX (op : Nat) (x : Reg) (ss : Nat) : Word := BitVec.ofNat 16 (op * 4096 + x.val * 256 + ss)

/-- The word of an instruction (R85). -/
def encode : Instr → Word
  | .cls => 0x00E0
  | .ret => 0x00EE
  | .jp nnn => encNNN 0x1 nnn
  | .call nnn => encNNN 0x2 nnn
  | .seImm x kk => encXKK 0x3 x kk
  | .sneImm x kk => encXKK 0x4 x kk
  | .seReg x y => encXYN 0x5 x y 0x0
  | .ldImm x kk => encXKK 0x6 x kk
  | .addImm x kk => encXKK 0x7 x kk
  | .ldReg x y => encXYN 0x8 x y 0x0
  | .orReg x y => encXYN 0x8 x y 0x1
  | .andReg x y => encXYN 0x8 x y 0x2
  | .xorReg x y => encXYN 0x8 x y 0x3
  | .addReg x y => encXYN 0x8 x y 0x4
  | .subReg x y => encXYN 0x8 x y 0x5
  | .shr x y => encXYN 0x8 x y 0x6
  | .subn x y => encXYN 0x8 x y 0x7
  | .shl x y => encXYN 0x8 x y 0xE
  | .sneReg x y => encXYN 0x9 x y 0x0
  | .ldI nnn => encNNN 0xA nnn
  | .jpV0 nnn => encNNN 0xB nnn
  | .rnd x kk => encXKK 0xC x kk
  | .drw x y n => encXYN 0xD x y n
  | .skp x => encX 0xE x 0x9E
  | .sknp x => encX 0xE x 0xA1
  | .ldVxDT x => encX 0xF x 0x07
  | .ldVxK x => encX 0xF x 0x0A
  | .ldDTVx x => encX 0xF x 0x15
  | .ldSTVx x => encX 0xF x 0x18
  | .addI x => encX 0xF x 0x1E
  | .ldF x => encX 0xF x 0x29
  | .ldB x => encX 0xF x 0x33
  | .storeRegs x => encX 0xF x 0x55
  | .loadRegs x => encX 0xF x 0x65

/-- The words of an instruction as memory holds them (R54). -/
def encodeBytes (i : Instr) : List Byte := [hiByte (encode i), loByte (encode i)]

/-- The mask and match of each instruction's row of R85's table: a word is the instruction of the row exactly when
`(w AND mask) = match`. -/
def Instr.row : Instr → Word × Word
  | .cls => (0xFFFF, 0x00E0)
  | .ret => (0xFFFF, 0x00EE)
  | .jp _ => (0xF000, 0x1000)
  | .call _ => (0xF000, 0x2000)
  | .seImm _ _ => (0xF000, 0x3000)
  | .sneImm _ _ => (0xF000, 0x4000)
  | .seReg _ _ => (0xF00F, 0x5000)
  | .ldImm _ _ => (0xF000, 0x6000)
  | .addImm _ _ => (0xF000, 0x7000)
  | .ldReg _ _ => (0xF00F, 0x8000)
  | .orReg _ _ => (0xF00F, 0x8001)
  | .andReg _ _ => (0xF00F, 0x8002)
  | .xorReg _ _ => (0xF00F, 0x8003)
  | .addReg _ _ => (0xF00F, 0x8004)
  | .subReg _ _ => (0xF00F, 0x8005)
  | .shr _ _ => (0xF00F, 0x8006)
  | .subn _ _ => (0xF00F, 0x8007)
  | .shl _ _ => (0xF00F, 0x800E)
  | .sneReg _ _ => (0xF00F, 0x9000)
  | .ldI _ => (0xF000, 0xA000)
  | .jpV0 _ => (0xF000, 0xB000)
  | .rnd _ _ => (0xF000, 0xC000)
  | .drw _ _ _ => (0xF000, 0xD000)
  | .skp _ => (0xF0FF, 0xE09E)
  | .sknp _ => (0xF0FF, 0xE0A1)
  | .ldVxDT _ => (0xF0FF, 0xF007)
  | .ldVxK _ => (0xF0FF, 0xF00A)
  | .ldDTVx _ => (0xF0FF, 0xF015)
  | .ldSTVx _ => (0xF0FF, 0xF018)
  | .addI _ => (0xF0FF, 0xF01E)
  | .ldF _ => (0xF0FF, 0xF029)
  | .ldB _ => (0xF0FF, 0xF033)
  | .storeRegs _ => (0xF0FF, 0xF055)
  | .loadRegs _ => (0xF0FF, 0xF065)

/-- The masks and matches of R85's 34 rows, in the table's order. -/
def opcodeRows : List (Word × Word) :=
  [(0xFFFF, 0x00E0), (0xFFFF, 0x00EE), (0xF000, 0x1000), (0xF000, 0x2000), (0xF000, 0x3000), (0xF000, 0x4000),
   (0xF00F, 0x5000), (0xF000, 0x6000), (0xF000, 0x7000), (0xF00F, 0x8000), (0xF00F, 0x8001), (0xF00F, 0x8002)]
  ++
  [(0xF00F, 0x8003), (0xF00F, 0x8004), (0xF00F, 0x8005), (0xF00F, 0x8006), (0xF00F, 0x8007), (0xF00F, 0x800E),
   (0xF00F, 0x9000), (0xF000, 0xA000), (0xF000, 0xB000), (0xF000, 0xC000), (0xF000, 0xD000)]
  ++
  [(0xF0FF, 0xE09E), (0xF0FF, 0xE0A1), (0xF0FF, 0xF007), (0xF0FF, 0xF00A), (0xF0FF, 0xF015), (0xF0FF, 0xF018),
   (0xF0FF, 0xF01E), (0xF0FF, 0xF029), (0xF0FF, 0xF033), (0xF0FF, 0xF055), (0xF0FF, 0xF065)]

/-- The word is the instruction of the row (R85). -/
def rowMatches (w : Word) (row : Word × Word) : Bool := (w &&& row.1) == row.2

end Sys2Proof
end

