-- ==== Sys2Proof/Config.lean ====
section
/-! DEFINITION. What an implementation of rs_chip_8 CORE fixes: the constants of 00_scope.md R6, the open
parameters of R7 with their defaults, and the free values. The parameters travel as the field `cfg` of State
(log 2), so that a theorem about every state is a theorem about every choice of them. -/

namespace Sys2Proof.Config

/-- `MEM_SIZE` (R6): the number of memory cells. -/
def memSize : Nat := 4096

/-- `FONT_BASE` (R6): the address of the glyph table. -/
def fontBase : Nat := 0x000

/-- `FONT_BYTES` (R6): the size of the glyph table. -/
def fontBytes : Nat := 80

/-- `GLYPH_BYTES` (R6): bytes per glyph. -/
def glyphBytes : Nat := 5

/-- `PROG_BASE` (R6): where a program image is loaded, and the reset value of PC. -/
def progBase : Nat := 0x200

/-- `PROG_MAX` (R6): the largest program image in bytes. -/
def progMax : Nat := 3584

/-- `ADDR_POLICY` (R7): what an access at an effective address above 0xFFF does (20_memory.md R53). -/
inductive AddrPolicy
  | mask
  | fault
deriving DecidableEq, Repr

/-- `FX0A_MODE` (R7): what `Fx0A` does (44_keypad_timers_random.md R173). -/
inductive Fx0aMode
  | wait
  | unimplemented
deriving DecidableEq, Repr

/-- `KEY_SELECT` (R7): which of several keys `Fx0A` reports. `lowest` is the spec's default; `other` is any other
function that answers a set bit of its argument, left uninterpreted (log 3). -/
inductive KeySelect
  | lowest
  | other
deriving DecidableEq, Repr

/-- The key an implementation with `KeySelect.other` prefers among those of a mask: a free value (log 3). -/
opaque keyPreference : BitVec 16 → Key

/-- The byte the random source gives at a draw, by the number of the draw: a free value (60_exceptions.md R218, log 5). -/
opaque rngByte : Nat → Byte

/-- `FONT` (R7): the 80 bytes of the glyph table. Bytes 0 to 4 are fixed (10_state.md R33), so only the other 75 are
a parameter. -/
structure Font where
  tail : Vector Byte 75
deriving DecidableEq, Repr

/-- The bytes of glyph 0, the only ones the source states (R33). -/
def glyph0 : Vector Byte 5 := #v[0xF0, 0x90, 0x90, 0x90, 0xF0]

/-- Byte `j` of the glyph table; 0 from byte 80 on, where there is no table. -/
def Font.byte (f : Font) (j : Nat) : Byte :=
  if h : j < 5 then glyph0[j]
  else if h' : j - 5 < 75 then f.tail[j - 5]
  else 0

/-- Glyphs 1 to 3 of the customary table (R33). PRESUMED by the spec itself (G2, D4; log 4). -/
def glyphs1to3 : List Byte :=
  [0x20, 0x60, 0x20, 0x20, 0x70,  0xF0, 0x10, 0xF0, 0x80, 0xF0,  0xF0, 0x10, 0xF0, 0x10, 0xF0]

/-- Glyphs 4 to 7 of the customary table (R33). PRESUMED (log 4). -/
def glyphs4to7 : List Byte :=
  [0x90, 0x90, 0xF0, 0x10, 0x10,  0xF0, 0x80, 0xF0, 0x10, 0xF0,  0xF0, 0x80, 0xF0, 0x90, 0xF0,
   0xF0, 0x10, 0x20, 0x40, 0x40]

/-- Glyphs 8 to B of the customary table (R33). PRESUMED (log 4). -/
def glyphs8toB : List Byte :=
  [0xF0, 0x90, 0xF0, 0x90, 0xF0,  0xF0, 0x90, 0xF0, 0x10, 0xF0,  0xF0, 0x90, 0xF0, 0x90, 0x90,
   0xE0, 0x90, 0xE0, 0x90, 0xE0]

/-- Glyphs C to F of the customary table (R33). PRESUMED (log 4). -/
def glyphsCtoF : List Byte :=
  [0xF0, 0x80, 0x80, 0x80, 0xF0,  0xE0, 0x90, 0x90, 0x90, 0xE0,  0xF0, 0x80, 0xF0, 0x80, 0xF0,
   0xF0, 0x80, 0xF0, 0x80, 0x80]

/-- The default of parameter `FONT`: the customary table (R33). PRESUMED (log 4). -/
def Font.customary : Font :=
  ⟨⟨(glyphs1to3 ++ glyphs4to7 ++ glyphs8toB ++ glyphsCtoF).toArray, rfl⟩⟩

/-- The open parameters of R7, but for `RNG`, which is `rngByte` and the bytes the host supplies. -/
structure Params where
  addrPolicy : AddrPolicy
  fx0aMode : Fx0aMode
  keySelect : KeySelect
  font : Font
deriving DecidableEq, Repr

/-- The defaults of R7. -/
def Params.default : Params :=
  ⟨.mask, .wait, .lowest, Font.customary⟩

end Sys2Proof.Config
end

