-- ==== Sys2Proof/Machine/State.lean ====
section
/-! DEFINITION. The state of rs_chip_8 CORE (10_state.md, the whole tuple of its preamble) as plain data, the outcome
of a step (60_exceptions.md R200, R201), and the state after construction (R35, 70_reset_and_hazards.md R230). -/

namespace Sys2Proof.Machine

open Sys2Proof.Config

/-- Main memory as a list of (address, byte): addresses strictly rising and below 4096, no entry equal to what an
unlisted address reads as (`Memory.wf`). An unlisted address reads as its reset contents (`Memory.unlisted`). -/
abbrev Memory := List Host.Cell

/-- The framebuffer: 32 rows of 64 pixels, row-major, true is on (10_state.md R29). -/
abbrev Framebuffer := Vector (Vector Bool 64) 32

/-- The framebuffer with every pixel off. -/
def Framebuffer.clear : Framebuffer := Vector.replicate 32 (Vector.replicate 64 false)

/-- The five kinds of error (60_exceptions.md R200). -/
inductive ErrorKind
  /-- The fetched word is none of the 34 patterns (R202). -/
  | invalidOpcode
  /-- `Fx0A` under `FX0A_MODE = UNIMPLEMENTED` (R203). -/
  | unimplemented
  /-- CALL with `SP = 16` (R204). -/
  | stackOverflow
  /-- RET with `SP = 0` (R205). -/
  | stackUnderflow
  /-- An access above 0xFFF under `ADDR_POLICY = FAULT` (R206). -/
  | addressOutOfRange
deriving DecidableEq, Repr

/-- The code of an error kind (R200). -/
def ErrorKind.code : ErrorKind → Nat
  | .invalidOpcode => 1
  | .unimplemented => 2
  | .stackOverflow => 3
  | .stackUnderflow => 4
  | .addressOutOfRange => 5

/-- The record an `Error` outcome carries (R201). -/
structure ErrorRecord where
  /-- The row of R200. -/
  kind : ErrorKind
  /-- The instruction address: PC when the step began. -/
  address : Word
  /-- The fetched word; absent only for a fetch AddressOutOfRange. -/
  opcode : Option Word
  /-- For AddressOutOfRange only: the lowest effective address of the access above 0xFFF. -/
  ea : Option (BitVec 17)
deriving DecidableEq, Repr

/-- How a `step()` ends (00_scope.md R11). -/
inductive StepOutcome
  | ok
  | error (e : ErrorRecord)
deriving DecidableEq, Repr

/-- The state. The fields down to `kx` are the spec's (10_state.md R20 to R32); the last four are the model's own,
which carry the parameters and inputs of a step and the value it returns (R34; log 1, 2, 5). -/
structure State where
  /-- `MEM` (R32) -/
  mem : Memory
  /-- `V0` to `VF` (R20) -/
  v : Vector Byte 16
  /-- `I` (R22) -/
  i : Word
  /-- `PC` (R23) -/
  pc : Word
  /-- `STACK` (R24) -/
  stack : Vector Word 16
  /-- `SP`, the number of occupied slots, 0 to 16 (R25) -/
  sp : Fin 17
  /-- `DT` (R26) -/
  dt : Byte
  /-- `ST` (R27) -/
  st : Byte
  /-- `KEYPAD` (R28) -/
  keypad : BitVec 16
  /-- `FB` (R29) -/
  fb : Framebuffer
  /-- `REDRAW` (R30) -/
  redraw : Bool
  /-- `AWAIT` (R31) -/
  await : Bool
  /-- `KX` (R31) -/
  kx : Reg
  /-- The open parameters (00_scope.md R7): fixed for a machine, changed by nothing (log 2). -/
  cfg : Params
  /-- Random bytes the host has supplied and no `Cxkk` has drawn yet (60_exceptions.md R218, R222; log 5). -/
  rngSupply : List Byte
  /-- How many bytes have been drawn (R218; log 5). -/
  rngDraws : Nat
  /-- What the latest step returned (00_scope.md R11, 60_exceptions.md R201; log 1, 7). -/
  outcome : StepOutcome
deriving DecidableEq, Repr

/-- Reasons for the machine to stop. There is none: every step from every state has a defined outcome
(93_implementation_defined.md, end of part 1), and an error is a next state (60_exceptions.md R208, R210; log 1). -/
inductive Fault
deriving DecidableEq, Repr

/-- Reasons for an instruction to have no meaning. -/
inductive Refusal
  /-- Raised by an arm of `exec` whose instruction has no meaning yet. No arm of this model raises it. Safe: the
  machine stops where the hardware goes on. -/
  | notModelled (mnemonic : String)
deriving DecidableEq, Repr

/-- The construct transaction (70_reset_and_hazards.md R230) on a machine with the given parameters: every element at
the value of 10_state.md R35. -/
def State.construct (cfg : Params) : State where
  mem := []
  v := Vector.replicate 16 0
  i := 0x0000
  pc := 0x0200
  stack := Vector.replicate 16 0
  sp := 0
  dt := 0
  st := 0
  keypad := 0x0000
  fb := Framebuffer.clear
  redraw := false
  await := false
  kx := 0
  cfg := cfg
  rngSupply := []
  rngDraws := 0
  outcome := .ok

/-- The machine right after construction, with the default parameters of 00_scope.md R7 (log 2). -/
def State.reset : State := State.construct Params.default

end Sys2Proof.Machine
end

