-- ==== Sys2Proof/Machine/Ops.lean ====
section
/-! DEFINITION. The named operations over memory, registers, stack, framebuffer, random input and program counter, and
how a step ends: with Ok, or with an error, which is ONE shared operation (60_exceptions.md R201, R208). -/

namespace Sys2Proof.Machine

open Sys2Proof.Config

/-! ## Memory (20_memory.md) -/

/-- What an address reads as when the memory list does not name it: its contents after construction, the glyph table
below 0x050 and zero above (20_memory.md R52, 10_state.md R33, R35). -/
def Memory.unlisted (f : Font) (a : Nat) : Byte :=
  if fontBase ≤ a ∧ a < fontBase + fontBytes then f.byte (a - fontBase) else 0

/-- The canonical form: addresses strictly rising and inside the 4096 cells (R50), no entry equal to what an unlisted
address reads as. -/
abbrev Memory.wf (f : Font) (m : Memory) : Prop :=
  m.Pairwise (fun p q => p.1 < q.1) ∧ ∀ p ∈ m, p.1 < memSize ∧ p.2 ≠ Memory.unlisted f p.1

/-- The entry of an address, if the list names it. -/
def Memory.lookup : Memory → Nat → Option Byte
  | [], _ => none
  | (b, w) :: m, a => if a = b then some w else Memory.lookup m a

/-- The cell `MEM[a]`. -/
def Memory.read (f : Font) (m : Memory) (a : Nat) : Byte :=
  (Memory.lookup m a).getD (Memory.unlisted f a)

/-- `MEM[a] <- v`, keeping the canonical form. -/
def Memory.write (f : Font) : Memory → Nat → Byte → Memory
  | [], a, v => if v = Memory.unlisted f a then [] else [(a, v)]
  | (b, w) :: m, a, v =>
    if a < b then (if v = Memory.unlisted f a then (b, w) :: m else (a, v) :: (b, w) :: m)
    else if a = b then (if v = Memory.unlisted f a then m else (a, v) :: m)
    else (b, w) :: Memory.write f m a v

/-- The cell an effective address names: the address itself up to 0xFFF, reduced mod 4096 above, which is where only
`ADDR_POLICY = MASK` comes (R53). -/
def cellOf (ea : Nat) : Nat := ea % memSize

/-- One byte as an access at effective address `ea` reads it. -/
def State.byteAt (s : State) (ea : Nat) : Byte := Memory.read s.cfg.font s.mem (cellOf ea)

/-- One byte written at effective address `ea`. -/
def State.putByte (s : State) (ea : Nat) (v : Byte) : State :=
  { s with mem := Memory.write s.cfg.font s.mem (cellOf ea) v }

/-- R66, R206: a transfer of `len` bytes at effective addresses `base` to `base + len - 1` is out of range under
`ADDR_POLICY = FAULT` when its highest address exceeds 0xFFF; the answer is the `ea` to report, the lowest address of
the transfer above 0xFFF. A transfer of no byte is never out of range (D30; log 21). -/
def transferError (p : AddrPolicy) (base len : Nat) : Option (BitVec 17) :=
  match p with
  | .mask => none
  | .fault => if 1 ≤ len ∧ 0xFFF < base + len - 1 then some (BitVec.ofNat 17 (max base 0x1000)) else none

/-- The bytes at `base`, `base + 1`, ..., ascending (R66). -/
def State.bytesAt (s : State) (base len : Nat) : List Byte :=
  (List.range len).map fun k => s.byteAt (base + k)

/-- The bytes written at `base`, `base + 1`, ..., ascending (R66). -/
def State.putBytes (s : State) (base : Nat) : List Byte → State
  | [] => s
  | b :: bs => (s.putByte base b).putBytes (base + 1) bs

/-- A multi-byte read: the whole transfer is checked before anything is read (R66). -/
def State.readTransfer (s : State) (base len : Nat) : Except (BitVec 17) (List Byte) :=
  match transferError s.cfg.addrPolicy base len with
  | some ea => .error ea
  | none => .ok (s.bytesAt base len)

/-- A multi-byte write: the whole transfer is checked before anything is written (R66). -/
def State.writeTransfer (s : State) (base : Nat) (bytes : List Byte) : Except (BitVec 17) State :=
  match transferError s.cfg.addrPolicy base bytes.length with
  | some ea => .error ea
  | none => .ok (s.putBytes base bytes)

/-! ## Registers (10_state.md R20 to R23) -/

/-- Index of `VF`, the flag register (R21). -/
def vF : Reg := 15

/-- `V[x]`. -/
def State.reg (s : State) (x : Reg) : Byte := s.v[x]

/-- `V[x] <- b`. No register is hard-wired (R20). -/
def State.setReg (s : State) (x : Reg) (b : Byte) : State := { s with v := s.v.set x b }

/-- `I <- w`. -/
def State.setI (s : State) (w : Word) : State := { s with i := w }

/-- `PC <- w`; never masked to 12 bits (R23). -/
def State.setPc (s : State) (w : Word) : State := { s with pc := w }

/-- The fetch's advance, `PC <- (PC + 2) mod 65536` (30_encoding.md R81). -/
def State.advancePc (s : State) : State := s.setPc (s.pc + 2)

/-- A skip, `PC <- (PC + 2) mod 65536` on the post-fetch PC, when the condition holds (41_control_flow.md R110). -/
def State.skipIf (s : State) (c : Bool) : State := if c then s.setPc (s.pc + 2) else s

/-- `DT <- b`. -/
def State.setDt (s : State) (b : Byte) : State := { s with dt := b }

/-- `ST <- b`. -/
def State.setSt (s : State) (b : Byte) : State := { s with st := b }

/-- Loads `V[x]`, `V[x+1]`, ... from a list of bytes, as far as there are registers. -/
def State.setRegsFrom (s : State) (x : Nat) : List Byte → State
  | [] => s
  | b :: bs =>
    if h : x < 16 then (s.setReg ⟨x, h⟩ b).setRegsFrom (x + 1) bs else s

/-- The values of `V0` to `V[x]`. -/
def State.regsUpTo (s : State) (x : Reg) : List Byte := s.v.toList.take (x.val + 1)

/-! ## Stack (10_state.md R24, R25) -/

/-- `STACK[SP] <- w; SP <- SP + 1`, when there is a free slot (41_control_flow.md R113). -/
def State.push (s : State) (w : Word) : Option State :=
  if h : s.sp.val < 16 then
    some { s with stack := s.stack.set s.sp.val w, sp := ⟨s.sp.val + 1, Nat.succ_lt_succ h⟩ }
  else none

/-- `SP <- SP - 1` and the value `STACK[SP]`, when a slot is occupied; the slot keeps its value (R111, R24). -/
def State.pop (s : State) : Option (Word × State) :=
  if 0 < s.sp.val then
    have h : s.sp.val - 1 < 16 := by omega
    some (s.stack[s.sp.val - 1], { s with sp := ⟨s.sp.val - 1, Nat.lt_succ_of_lt h⟩ })
  else none

/-! ## Framebuffer (10_state.md R29, R30) and the XOR-blit (40_display.md R101) -/

/-- `FB[r][c]`; off outside the 32 by 64 grid. -/
def Framebuffer.pixel (fb : Framebuffer) (r c : Nat) : Bool :=
  if h : r < 32 ∧ c < 64 then (fb[r]'h.1)[c]'h.2 else false

/-- `FB[r][c] <- FB[r][c] XOR 1`. A pixel outside the grid is clipped: nothing changes (R101). -/
def Framebuffer.toggle (fb : Framebuffer) (r c : Nat) : Framebuffer :=
  if h : r < 32 ∧ c < 64 then fb.set r ((fb[r]'h.1).set c (!(fb[r]'h.1)[c]'h.2) h.2) h.1 else fb

/-- A draw in progress: the framebuffer and whether a lit pixel has been turned off. -/
structure Blit where
  fb : Framebuffer
  collision : Bool
deriving DecidableEq, Repr

/-- One sprite pixel: a 0 bit changes nothing and never collides; a clipped pixel neither (R101). -/
def Blit.pixel (p : Blit) (row col : Nat) (bit : Bool) : Blit :=
  if bit then ⟨p.fb.toggle row col, p.collision || p.fb.pixel row col⟩ else p

/-- One sprite row, columns left to right; bit 7 of the byte is the leftmost pixel (R101, D5; log 12). -/
def Blit.row (p : Blit) (row x0 : Nat) (b : Byte) : Blit :=
  (List.range 8).foldl (fun q c => q.pixel row (x0 + c) (b.getLsbD (7 - c))) p

/-- The sprite rows top to bottom, from screen row `row` on. -/
def Blit.rows (p : Blit) (row x0 : Nat) : List Byte → Blit
  | [] => p
  | b :: bs => (p.row row x0 b).rows (row + 1) x0 bs

/-- `FB <- fb`. -/
def State.setFb (s : State) (fb : Framebuffer) : State := { s with fb := fb }

/-- `REDRAW <- b`. -/
def State.setRedraw (s : State) (b : Bool) : State := { s with redraw := b }

/-! ## Keys (10_state.md R28, R31; 44_keypad_timers_random.md R173) -/

/-- Bit `k` of the keypad mask, for any byte `k`: above 15 there is no such bit and it reads as not pressed (R171, D14). -/
def State.keyDown (s : State) (k : Byte) : Bool := decide (k.toNat ≤ 15) && s.keypad.getLsbD k.toNat

/-- The lowest-numbered set bit of a mask among bits `k` to `k + fuel - 1`; 0 if there is none. -/
def lowestFrom (m : BitVec 16) : Nat → Nat → Key
  | _, 0 => 0
  | k, fuel + 1 => if m.getLsbD k then Fin.ofNat 16 k else lowestFrom m (k + 1) fuel

/-- The lowest-numbered key of a mask: the default `KEY_SELECT` (R173, D13). -/
def lowestKey (m : BitVec 16) : Key := lowestFrom m 0 16

/-- `KEY_SELECT(m)` (R173): the lowest key; or, for an implementation with another function, whatever key of the mask
it prefers (log 3). A set bit of `m` whenever `m` has one. -/
def keySelect (ks : KeySelect) (m : BitVec 16) : Key :=
  match ks with
  | .lowest => lowestKey m
  | .other => if m.getLsbD (keyPreference m).val then keyPreference m else lowestKey m

/-- `KX <- x; AWAIT <- 1`. -/
def State.startAwait (s : State) (x : Reg) : State := { s with kx := x, await := true }

/-- `AWAIT <- 0`. -/
def State.stopAwait (s : State) : State := { s with await := false }

/-! ## The random byte input (60_exceptions.md R218) -/

/-- The byte of the next draw: the oldest byte the host has supplied, else a free value (log 5). -/
def State.rngNext (s : State) : Byte :=
  match s.rngSupply with
  | b :: _ => b
  | [] => rngByte s.rngDraws

/-- One draw made: a supplied byte is used up, and the draw is counted. -/
def State.rngAdvance (s : State) : State :=
  { s with rngSupply := s.rngSupply.tail, rngDraws := s.rngDraws + 1 }

/-! ## How a step ends (00_scope.md R11; 60_exceptions.md R201, R208) -/

/-- The step's return value. -/
def State.setOutcome (s : State) (o : StepOutcome) : State := { s with outcome := o }

/-- The step ends with Ok. -/
def complete (s : State) : Host.Outcome State Fault Refusal := .next (s.setOutcome .ok)

/-- TAKING AN ERROR (R201, R208): the step ends with the record, and NOTHING of the state it is applied to changes but
that return value. No register saves anything, there is no vector and no mode; control goes back to the host, and the
RETURN is the next `step()`, which simply goes on (R210). -/
def raise (e : ErrorRecord) (s : State) : Host.Outcome State Fault Refusal := .next (s.setOutcome (.error e))

/-- An error of instruction `ins` in its execute phase, where PC already is the post-fetch PC: the instruction address
is PC - 2 and the fetched word is the instruction's (R201; log 17). -/
def raiseIn (ins : Instr) (kind : ErrorKind) (ea : Option (BitVec 17)) (s : State) :
    Host.Outcome State Fault Refusal :=
  raise ⟨kind, s.pc - 2, some (encode ins), ea⟩ s

/-! ## Fetch (30_encoding.md R81) and the awaiting-input check (R80, R173) -/

/-- The word at `PC`, `PC + 1`, big-endian, or the `ea` of a fetch out of range (R81, R54, R66). -/
def State.fetch (s : State) : Except (BitVec 17) Word :=
  match transferError s.cfg.addrPolicy s.pc.toNat 2 with
  | some ea => .error ea
  | none => .ok (wordOfBytes (s.byteAt s.pc.toNat) (s.byteAt (s.pc.toNat + 1)))

/-- A fetch out of range: no word was obtained, PC is not advanced (R81, R206, R208). -/
def raiseFetch (ea : BitVec 17) (s : State) : Host.Outcome State Fault Refusal :=
  raise ⟨.addressOutOfRange, s.pc, none, some ea⟩ s

/-- A fetched word that is no instruction: PC is advanced, nothing else changes (R202, R208). -/
def raiseInvalid (w : Word) (s : State) : Host.Outcome State Fault Refusal :=
  raise ⟨.invalidOpcode, s.pc, some w, none⟩ s.advancePc

/-- The step taken while `AWAIT = 1` (R80, R173): a key that is down ends the wait, else nothing changes. -/
def awaitKey (s : State) : Host.Outcome State Fault Refusal :=
  if s.keypad ≠ 0 then
    complete ((s.setReg s.kx (BitVec.ofNat 8 (keySelect s.cfg.keySelect s.keypad).val)).stopAwait)
  else complete s

end Sys2Proof.Machine
end

