-- ==== Sys2Proof/Machine/Operands.lean ====
section
/-! DEFINITION. Operand forms and the values computed from them: zero extension, effective addresses, 8-bit
arithmetic, decimal digits (00_scope.md R9, 30_encoding.md R84, 43_index_memory.md). -/

namespace Sys2Proof.Machine

open Sys2Proof.Config

/-- `zext_16(nnn)` (R84). -/
def zextAddr (nnn : Addr12) : Word := BitVec.ofNat 16 nnn.toNat

/-- `zext_16(V[x])`. -/
def zextByte (b : Byte) : Word := BitVec.ofNat 16 b.toNat

/-- The base effective address `I`, as an unbounded integer; byte `k` of a transfer is at `I + k` (R53, R55). -/
def State.base (s : State) : Nat := s.i.toNat

/-- `(a + b) mod 256` (42_load_alu.md R131, R136). -/
def addByte (a b : Byte) : Byte := BitVec.ofNat 8 (a.toNat + b.toNat)

/-- `(a - b) mod 256` (R137, R139). -/
def subByte (a b : Byte) : Byte := BitVec.ofInt 8 (a.toNat - b.toNat)

/-- `a div 2` (R138). -/
def halfByte (a : Byte) : Byte := BitVec.ofNat 8 (a.toNat / 2)

/-- `(a × 2) mod 256` (R140). -/
def doubleByte (a : Byte) : Byte := BitVec.ofNat 8 (a.toNat * 2)

/-- The address of the glyph of a register value, `FONT_BASE + zext_16(V[x]) × 5`, not masked (43_index_memory.md R152). -/
def glyphAddr (b : Byte) : Word := BitVec.ofNat 16 (fontBase + b.toNat * glyphBytes)

/-- The hundreds, tens and ones digits of a byte, one byte each (R153). -/
def decimalDigits (b : Byte) : List Byte :=
  [BitVec.ofNat 8 (b.toNat / 100), BitVec.ofNat 8 (b.toNat / 10 % 10), BitVec.ofNat 8 (b.toNat % 10)]

end Sys2Proof.Machine
end

