-- ==== Sys2Proof/Machine/Flags.lean ====
section
/-! DEFINITION. The flag computations: VF is the only flag (10_state.md R21) and is written last, so that it wins when
VF is also the destination (42_load_alu.md R129). -/

namespace Sys2Proof.Machine

/-- The value of a flag: 1 or 0. -/
def flagByte (b : Bool) : Byte := if b then 1 else 0

/-- Carry out of an 8-bit sum: the sum exceeds 255 (R136). -/
def carryOut (a b : Byte) : Bool := decide (255 < a.toNat + b.toNat)

/-- No borrow in `a - b`: the minuend is not below the subtrahend (R137, R139). -/
def notBorrow (a b : Byte) : Bool := decide (b.toNat ≤ a.toNat)

/-- The bit a right shift drops: bit 0 (R138). -/
def lowBit (a : Byte) : Bool := a.getLsbD 0

/-- The bit a left shift drops: bit 7 (R140). -/
def highBit (a : Byte) : Bool := a.getLsbD 7

/-- `V[15] <- flag`. -/
def State.setFlag (s : State) (b : Bool) : State := s.setReg vF (flagByte b)

/-- The result to `V[x]`, then the flag to VF (R129). -/
def State.setResultFlag (s : State) (x : Reg) (result : Byte) (flag : Bool) : State :=
  (s.setReg x result).setFlag flag

end Sys2Proof.Machine
end

