-- ==== Sys2Proof/Machine/Alu.lean ====
section
/-! DEFINITION. Register load and arithmetic-logic instructions (42_load_alu.md). -/

namespace Sys2Proof.Machine

/-- `6xkk` LD Vx, kk (R130). -/
def execLdImm (x : Reg) (kk : Byte) (s : State) : Host.Outcome State Fault Refusal :=
  complete (s.setReg x kk)

/-- `7xkk` ADD Vx, kk (R131): no flag. -/
def execAddImm (x : Reg) (kk : Byte) (s : State) : Host.Outcome State Fault Refusal :=
  complete (s.setReg x (addByte (s.reg x) kk))

/-- `8xy0` LD Vx, Vy (R132). -/
def execLdReg (x y : Reg) (s : State) : Host.Outcome State Fault Refusal :=
  complete (s.setReg x (s.reg y))

/-- `8xy1` OR Vx, Vy (R133): VF unchanged (D19). -/
def execOrReg (x y : Reg) (s : State) : Host.Outcome State Fault Refusal :=
  complete (s.setReg x (s.reg x ||| s.reg y))

/-- `8xy2` AND Vx, Vy (R134): VF unchanged (D19). -/
def execAndReg (x y : Reg) (s : State) : Host.Outcome State Fault Refusal :=
  complete (s.setReg x (s.reg x &&& s.reg y))

/-- `8xy3` XOR Vx, Vy (R135): VF unchanged (D19). -/
def execXorReg (x y : Reg) (s : State) : Host.Outcome State Fault Refusal :=
  complete (s.setReg x (s.reg x ^^^ s.reg y))

/-- `8xy4` ADD Vx, Vy (R136): VF is the carry. -/
def execAddReg (x y : Reg) (s : State) : Host.Outcome State Fault Refusal :=
  complete (s.setResultFlag x (addByte (s.reg x) (s.reg y)) (carryOut (s.reg x) (s.reg y)))

/-- `8xy5` SUB Vx, Vy (R137): VF is not borrow. -/
def execSubReg (x y : Reg) (s : State) : Host.Outcome State Fault Refusal :=
  complete (s.setResultFlag x (subByte (s.reg x) (s.reg y)) (notBorrow (s.reg x) (s.reg y)))

/-- `8xy6` SHR Vx (R138): in place, `y` ignored (R89); VF is the old bit 0. -/
def execShr (x _y : Reg) (s : State) : Host.Outcome State Fault Refusal :=
  complete (s.setResultFlag x (halfByte (s.reg x)) (lowBit (s.reg x)))

/-- `8xy7` SUBN Vx, Vy (R139): `V[y] - V[x]` to `V[x]`; VF is not borrow. -/
def execSubn (x y : Reg) (s : State) : Host.Outcome State Fault Refusal :=
  complete (s.setResultFlag x (subByte (s.reg y) (s.reg x)) (notBorrow (s.reg y) (s.reg x)))

/-- `8xyE` SHL Vx (R140): in place, `y` ignored (R89); VF is the old bit 7. -/
def execShl (x _y : Reg) (s : State) : Host.Outcome State Fault Refusal :=
  complete (s.setResultFlag x (doubleByte (s.reg x)) (highBit (s.reg x)))

end Sys2Proof.Machine
end

