-- ==== Sys2Proof/Machine/ControlFlow.lean ====
section
/-! DEFINITION. Control-flow instructions (41_control_flow.md). PC holds the post-fetch PC when they run (R110). -/

namespace Sys2Proof.Machine

/-- `00EE` RET (R111): StackUnderflow when the stack is empty, with nothing popped. -/
def execRet (s : State) : Host.Outcome State Fault Refusal :=
  match s.pop with
  | some (w, t) => complete (t.setPc w)
  | none => raiseIn .ret .stackUnderflow none s

/-- `1nnn` JP nnn (R112). -/
def execJp (nnn : Addr12) (s : State) : Host.Outcome State Fault Refusal :=
  complete (s.setPc (zextAddr nnn))

/-- `2nnn` CALL nnn (R113): pushes the post-fetch PC; StackOverflow when the stack is full, with nothing pushed. -/
def execCall (nnn : Addr12) (s : State) : Host.Outcome State Fault Refusal :=
  match s.push s.pc with
  | some t => complete (t.setPc (zextAddr nnn))
  | none => raiseIn (.call nnn) .stackOverflow none s

/-- `3xkk` SE Vx, kk (R114). -/
def execSeImm (x : Reg) (kk : Byte) (s : State) : Host.Outcome State Fault Refusal :=
  complete (s.skipIf (s.reg x == kk))

/-- `4xkk` SNE Vx, kk (R115). -/
def execSneImm (x : Reg) (kk : Byte) (s : State) : Host.Outcome State Fault Refusal :=
  complete (s.skipIf (s.reg x != kk))

/-- `5xy0` SE Vx, Vy (R116). -/
def execSeReg (x y : Reg) (s : State) : Host.Outcome State Fault Refusal :=
  complete (s.skipIf (s.reg x == s.reg y))

/-- `9xy0` SNE Vx, Vy (R117). -/
def execSneReg (x y : Reg) (s : State) : Host.Outcome State Fault Refusal :=
  complete (s.skipIf (s.reg x != s.reg y))

/-- `Bnnn` JP V0, nnn (R118): the sum is not masked to 12 bits. -/
def execJpV0 (nnn : Addr12) (s : State) : Host.Outcome State Fault Refusal :=
  complete (s.setPc (zextAddr nnn + zextByte (s.reg 0)))

end Sys2Proof.Machine
end

