-- ==== Sys2Proof/Machine/Display.lean ====
section
/-! DEFINITION. Display instructions and the XOR-blit engine (40_display.md). -/

namespace Sys2Proof.Machine

/-- `00E0` CLS (R100): every pixel off; VF and REDRAW untouched (D22). -/
def execCls (s : State) : Host.Outcome State Fault Refusal :=
  complete (s.setFb Framebuffer.clear)

/-- `Dxyn` DRW Vx, Vy, n (R101): the start coordinate is reduced, the sprite is clipped at the right and bottom edges
(D6; log 12); both coordinates are read before VF is written (D7). Where R101's corner case 7 says more than its
pseudocode, the pseudocode is followed (log 23). -/
def execDrw (x y : Reg) (n : Nat) (s : State) : Host.Outcome State Fault Refusal :=
  match s.readTransfer s.base n with
  | .ok sprite =>
    let drawn := (Blit.mk s.fb false).rows ((s.reg y).toNat % 32) ((s.reg x).toNat % 64) sprite
    complete (((s.setFb drawn.fb).setFlag drawn.collision).setRedraw true)
  | .error ea => raiseIn (.drw x y n) .addressOutOfRange (some ea) s

end Sys2Proof.Machine
end

