-- ==== Sys2Proof/Machine/IndexMemory.lean ====
section
/-! DEFINITION. Index-register and memory instructions (43_index_memory.md). None of the memory instructions changes
`I` (D18). -/

namespace Sys2Proof.Machine

/-- `Annn` LD I, nnn (R150). -/
def execLdI (nnn : Addr12) (s : State) : Host.Outcome State Fault Refusal :=
  complete (s.setI (zextAddr nnn))

/-- `Fx1E` ADD I, Vx (R151): wraps at 16 bits, no flag (D19). -/
def execAddI (x : Reg) (s : State) : Host.Outcome State Fault Refusal :=
  complete (s.setI (s.i + zextByte (s.reg x)))

/-- `Fx29` LD F, Vx (R152): the whole byte is multiplied (D21). -/
def execLdF (x : Reg) (s : State) : Host.Outcome State Fault Refusal :=
  complete (s.setI (glyphAddr (s.reg x)))

/-- `Fx33` LD B, Vx (R153). -/
def execLdB (x : Reg) (s : State) : Host.Outcome State Fault Refusal :=
  match s.writeTransfer s.base (decimalDigits (s.reg x)) with
  | .ok t => complete t
  | .error ea => raiseIn (.ldB x) .addressOutOfRange (some ea) s

/-- `Fx55` LD [I], Vx (R154): `V0` to `V[x]` to memory. -/
def execStoreRegs (x : Reg) (s : State) : Host.Outcome State Fault Refusal :=
  match s.writeTransfer s.base (s.regsUpTo x) with
  | .ok t => complete t
  | .error ea => raiseIn (.storeRegs x) .addressOutOfRange (some ea) s

/-- `Fx65` LD Vx, [I] (R155): `V0` to `V[x]` from memory. -/
def execLoadRegs (x : Reg) (s : State) : Host.Outcome State Fault Refusal :=
  match s.readTransfer s.base (x.val + 1) with
  | .ok bytes => complete (s.setRegsFrom 0 bytes)
  | .error ea => raiseIn (.loadRegs x) .addressOutOfRange (some ea) s

end Sys2Proof.Machine
end

