-- ==== Sys2Proof/Machine/Inputs.lean ====
section
/-! DEFINITION. Random, keypad and timer instructions (44_keypad_timers_random.md). -/

namespace Sys2Proof.Machine

open Sys2Proof.Config

/-- `Cxkk` RND Vx, kk (R170): exactly one draw, also when `kk = 0` (D26). -/
def execRnd (x : Reg) (kk : Byte) (s : State) : Host.Outcome State Fault Refusal :=
  complete (s.rngAdvance.setReg x (s.rngNext &&& kk))

/-- `Ex9E` SKP Vx (R171). -/
def execSkp (x : Reg) (s : State) : Host.Outcome State Fault Refusal :=
  complete (s.skipIf (s.keyDown (s.reg x)))

/-- `ExA1` SKNP Vx (R172). -/
def execSknp (x : Reg) (s : State) : Host.Outcome State Fault Refusal :=
  complete (s.skipIf (!s.keyDown (s.reg x)))

/-- `Fx07` LD Vx, DT (R174). -/
def execLdVxDT (x : Reg) (s : State) : Host.Outcome State Fault Refusal :=
  complete (s.setReg x s.dt)

/-- `Fx0A` LD Vx, K (R173): the execute phase starts the wait and does not look at the keypad; or Unimplemented
(60_exceptions.md R203). -/
def execLdVxK (x : Reg) (s : State) : Host.Outcome State Fault Refusal :=
  match s.cfg.fx0aMode with
  | .wait => complete (s.startAwait x)
  | .unimplemented => raiseIn (.ldVxK x) .unimplemented none s

/-- `Fx15` LD DT, Vx (R175). -/
def execLdDTVx (x : Reg) (s : State) : Host.Outcome State Fault Refusal :=
  complete (s.setDt (s.reg x))

/-- `Fx18` LD ST, Vx (R176). -/
def execLdSTVx (x : Reg) (s : State) : Host.Outcome State Fault Refusal :=
  complete (s.setSt (s.reg x))

end Sys2Proof.Machine
end

