-- ==== Sys2Proof/Machine/Step.lean ====
section
/-! DEFINITION. The step (30_encoding.md R80), and where an instruction is placed for the next step to run it. -/

namespace Sys2Proof.Machine

/-- R80: the awaiting-input check, else fetch, PC advance, decode and execute. -/
def step (s : State) : Host.Outcome State Fault Refusal :=
  if s.await then awaitKey s
  else
    match s.fetch with
    | .error ea => raiseFetch ea s
    | .ok w =>
      match decodeWord w with
      | .error _ => raiseInvalid w s
      | .ok ins => exec ins s.advancePc

/-- The address the next fetch uses: PC; or, where `ADDR_POLICY = FAULT` makes a fetch at PC impossible, 0x200
(log 14). -/
def State.fetchPc (s : State) : Word :=
  match transferError s.cfg.addrPolicy s.pc.toNat 2 with
  | none => s.pc
  | some _ => 0x0200

/-- `s` with a table word of `nbits` bits stored, big-endian, where the next step fetches; a wait for a key, in which a
step fetches nothing, is ended (log 14). -/
def State.withFetchWord (s : State) (nbits w : Nat) : State :=
  let word : Word := BitVec.ofNat 16 (w % 2 ^ nbits)
  ({ s with pc := s.fetchPc, await := false } : State).putBytes s.fetchPc.toNat [hiByte word, loByte word]

end Sys2Proof.Machine
end

