-- ==== Sys2Proof/Machine/Transactions.lean ====
section
/-! DEFINITION. Everything the host can do to the core (60_exceptions.md R222): atomic transactions between steps. A
history of the machine is a list of them (20_memory.md R60; log 13). -/

namespace Sys2Proof.Machine

open Sys2Proof.Config

/-- The rows of R222. -/
inductive Transaction
  /-- construct (70_reset_and_hazards.md R230) -/
  | construct
  /-- `load(bytes)` (20_memory.md R65) -/
  | load (image : List Byte)
  /-- `step()` (30_encoding.md R80) -/
  | step
  /-- `tick()` (R214) -/
  | tick
  /-- `key_down(k)` (R216) -/
  | keyDown (k : Nat)
  /-- `key_up(k)` (R216) -/
  | keyUp (k : Nat)
  /-- `fb_read()` (R217) -/
  | fbRead
  /-- `redraw_read()` (R217) -/
  | redrawRead
  /-- `redraw_clear()` (R217) -/
  | redrawClear
  /-- `status_read()` (R215, R221) -/
  | statusRead
  /-- supply of `RngDraw()` bytes (R218) -/
  | supplyRandom (bytes : List Byte)
deriving DecidableEq, Repr

/-- What a transaction answers the host. -/
inductive Response
  | done
  /-- The transaction is outside the interface and changes nothing (93_implementation_defined.md U12, U13; log 18). -/
  | refused
  /-- The outcome of a step (00_scope.md R11). -/
  | stepped (o : StepOutcome)
  | pixels (fb : Framebuffer)
  | redraw (flag : Bool)
  | status (awaiting : Bool) (dt st : Byte)
deriving DecidableEq, Repr

/-- `load` (R65): the image verbatim from 0x200 on and nothing else; an image of more than 3584 bytes is refused (D23). -/
def State.load (s : State) (image : List Byte) : State × Response :=
  if image.length ≤ progMax then (s.putBytes progBase image, .done) else (s, .refused)

/-- One timer's part of a tick: down by 1, clamped at 0 (R214). -/
def tickDown (b : Byte) : Byte := BitVec.ofNat 8 (b.toNat - 1)

/-- `tick` (R214): both timers (D24). -/
def State.tick (s : State) : State := (s.setDt (tickDown s.dt)).setSt (tickDown s.st)

/-- `KEYPAD[k] <- b` (R216). -/
def setKeyBit (m : BitVec 16) (k : Nat) (b : Bool) : BitVec 16 :=
  if b then m ||| (1#16 <<< k) else m &&& ~~~(1#16 <<< k)

/-- `key_down(k)`, `key_up(k)` (R216); a `k` outside 0 to 15 is refused (U13). -/
def State.setKey (s : State) (k : Nat) (b : Bool) : State × Response :=
  if k ≤ 15 then ({ s with keypad := setKeyBit s.keypad k b }, .done) else (s, .refused)

/-- construct (R230): everything to its reset value; the parameters are the machine's own, and the random source, which
is outside the core (R34, R218), goes on where it was (log 19). -/
def State.reconstruct (s : State) : State :=
  { State.construct s.cfg with rngSupply := s.rngSupply, rngDraws := s.rngDraws }

/-- One transaction: the next state and the answer to the host. -/
def transact (t : Transaction) (s : State) : Host.Outcome (State × Response) Fault Refusal :=
  match t with
  | .construct => .next (s.reconstruct, .done)
  | .load image => .next (s.load image)
  | .step =>
    match Sys2Proof.Machine.step s with
    | .next s' => .next (s', .stepped s'.outcome)
    | .fault r => .fault r
    | .refused r => .refused r
  | .tick => .next (s.tick, .done)
  | .keyDown k => .next (s.setKey k true)
  | .keyUp k => .next (s.setKey k false)
  | .fbRead => .next (s, .pixels s.fb)
  | .redrawRead => .next (s, .redraw s.redraw)
  | .redrawClear => .next (s.setRedraw false, .done)
  | .statusRead => .next (s, .status s.await s.dt s.st)
  | .supplyRandom bytes => .next ({ s with rngSupply := s.rngSupply ++ bytes }, .done)

/-- A history: the transactions one after another (R60). -/
def runTransactions : List Transaction → State → Host.Outcome State Fault Refusal
  | [], s => .next s
  | t :: ts, s =>
    match transact t s with
    | .next (s', _) => runTransactions ts s'
    | .fault r => .fault r
    | .refused r => .refused r

end Sys2Proof.Machine
end

