-- ==== Sys2Proof/Safety.lean ====
section
/-! DEFINITION. What counts as a safe step or run, when a run has ended, the invariant of the machine, and the words the
claims use about sprites, frames and stored bytes. -/

namespace Sys2Proof.Machine

open Sys2Proof.Config

/-- The step from `s` ends with Ok (00_scope.md R11). -/
def SafeStep (s : State) : Prop := ∃ t, step s = .next t ∧ t.outcome = .ok

/-- The first `n` steps from `s`, with no transaction between them, end with Ok. -/
def SafeRun : Nat → State → Prop
  | 0, _ => True
  | n + 1, s => ∃ t, step s = .next t ∧ t.outcome = .ok ∧ SafeRun n t

/-- R240: the run has ended: PC holds an address `h` with a jump to `h` there, and no key is awaited. -/
def Ended (s : State) : Prop :=
  s.await = false ∧ ∃ nnn : Addr12, s.pc.toNat = nnn.toNat ∧ s.fetch = .ok (encode (.jp nnn))

/-- R37: what holds after construction and after every step and transaction, beyond what the types of the fields say
(`SP` at most 16, every width): memory is in its canonical form, and a key is awaited only under `FX0A_MODE = WAIT`. -/
def Inv (s : State) : Prop :=
  Memory.wf s.cfg.font s.mem ∧ (s.await = true → s.cfg.fx0aMode = .wait)

/-- The bit a sprite has for the pixel at row `r`, column `c` when its top left pixel is at row `y0`, column `x0`: byte
`k` is row `y0 + k` and bit 7 is the leftmost of the 8 columns; off outside the sprite (40_display.md R101). -/
def spriteBit (sprite : List Byte) (y0 x0 r c : Nat) : Bool :=
  decide (y0 ≤ r ∧ r < y0 + sprite.length ∧ x0 ≤ c ∧ c < x0 + 8) && (sprite.getD (r - y0) 0).getLsbD (7 - (c - x0))

/-- `c` is one of the cells a transfer of `len` bytes at `base` uses (20_memory.md R53, R66). -/
def InTransfer (base len c : Nat) : Prop := ∃ k < len, cellOf (base + k) = cellOf c

/-- A transfer of `len` bytes at `base` is in range: every address under `ADDR_POLICY = MASK`, and under `FAULT` one
whose addresses all are at most 0xFFF, or of no byte (R53, R66). -/
def InRange (s : State) (base len : Nat) : Prop :=
  s.cfg.addrPolicy = .mask ∨ len = 0 ∨ base + len ≤ 4096

/-- `r` is a register the instruction names as its destination (10_state.md R20, R36): `V[x]`, or `V0` to `V[x]` for
`Fx65`. The flag is not counted. -/
def NamesDest (i : Instr) (r : Reg) : Prop :=
  match i with
  | .ldImm x _ | .addImm x _ | .rnd x _ | .ldVxDT x => r = x
  | .ldReg x _ | .orReg x _ | .andReg x _ | .xorReg x _ | .addReg x _ | .subReg x _ | .shr x _ | .subn x _
  | .shl x _ => r = x
  | .loadRegs x => r.val ≤ x.val
  | .cls | .ret | .jp _ | .call _ | .seImm _ _ | .sneImm _ _ | .seReg _ _ | .sneReg _ _ | .ldI _ | .jpV0 _
  | .drw _ _ _ | .skp _ | .sknp _ | .ldVxK _ | .ldDTVx _ | .ldSTVx _ | .addI _ | .ldF _ | .ldB _
  | .storeRegs _ => False

/-- The instruction writes VF as a flag (10_state.md R21): six of them. -/
def WritesFlag (i : Instr) : Prop :=
  match i with
  | .addReg _ _ | .subReg _ _ | .shr _ _ | .subn _ _ | .shl _ _ | .drw _ _ _ => True
  | .cls | .ret | .jp _ | .call _ | .seImm _ _ | .sneImm _ _ | .seReg _ _ | .ldImm _ _ | .addImm _ _ | .ldReg _ _
  | .orReg _ _ | .andReg _ _ | .xorReg _ _ | .sneReg _ _ | .ldI _ | .jpV0 _ | .rnd _ _ | .skp _ | .sknp _
  | .ldVxDT _ | .ldVxK _ | .ldDTVx _ | .ldSTVx _ | .addI _ | .ldF _ | .ldB _ | .storeRegs _ | .loadRegs _ => False

/-- The spec's elements of a state are at the values of 10_state.md R35: memory is the machine's glyph table and zero,
PC is 0x200, everything else is zero. -/
structure HasResetValues (s : State) : Prop where
  font : ∀ j < 80, s.byteAt j = s.cfg.font.byte j
  glyph0 : s.byteAt 0 = 0xF0 ∧ s.byteAt 1 = 0x90 ∧ s.byteAt 2 = 0x90 ∧ s.byteAt 3 = 0x90 ∧ s.byteAt 4 = 0xF0
  zeroed : ∀ a, 80 ≤ a → a < 4096 → s.byteAt a = 0
  v : ∀ r, s.reg r = 0
  i : s.i = 0
  pc : s.pc = 0x0200
  sp : s.sp = 0
  stack : ∀ j < 16, s.stack[j]? = some 0
  dt : s.dt = 0
  st : s.st = 0
  keypad : s.keypad = 0
  fb : ∀ r c, s.fb.pixel r c = false
  redraw : s.redraw = false
  await : s.await = false
  kx : s.kx = 0

end Sys2Proof.Machine
end

