-- ==== Sys2Proof/Certificates/Slice0/Obligations.lean ====
section
/-! DEFINITION. The statements for the provers. Each docstring names the rule of spec/ it formalises. Where a statement
is about `exec`, the state it runs on has the post-fetch PC (30_encoding.md R80, R81), so the instruction address is
PC - 2. An equation `t = { s with ... }` is the frame: every element of the state that is not listed is unchanged, all
of memory among them. -/

open Sys2Proof Sys2Proof.Machine Sys2Proof.Config

/-! ## Encoding -/

/-- Decode and encode agree (R82, R83, R85, R54): the bytes of every well-formed instruction, followed by any bytes,
decode to that instruction and leave the rest. -/
def Obligations.DecodeInvertsEncode : Prop :=
  ∀ (i : Instr) (rest : List Byte), i.wf = true → decode (encodeBytes i ++ rest) = .ok (i, rest)

/-- No bit of a word is dropped (R82, R85, R86): a word that decodes is the word of the instruction it decodes to, and
that instruction is well-formed. -/
def Obligations.EncodeInvertsDecode : Prop :=
  ∀ (w : Word) (i : Instr), decodeWord w = .ok i → i.wf = true ∧ encode i = w

/-- R85: a word is the instruction of a row exactly when `(w AND mask) = match`, and the rows are pairwise disjoint. The
numbers are the spec's decision D1 (log 10). -/
def Obligations.DecoderFollowsMaskAndMatchTable : Prop :=
  (∀ (w : Word) (i : Instr), decodeWord w = .ok i → i.row ∈ opcodeRows ∧ rowMatches w i.row = true) ∧
  (∀ (w : Word), ∀ row ∈ opcodeRows, rowMatches w row = true → ∃ i, decodeWord w = .ok i ∧ i.row = row) ∧
  (∀ (w : Word), ∀ p ∈ opcodeRows, ∀ q ∈ opcodeRows, rowMatches w p = true → rowMatches w q = true → p = q)

/-- R87's table of invalid words, family by family. Strictness in families 0, 5 and 9 is the spec's decision D2 (log 11). -/
def Obligations.InvalidWordsByFamily : Prop :=
  ∀ w : Word, decodeWord w = .error (.invalidOpcode w) ↔
    (opField w = 0x0 ∧ slice w 11 0 ≠ 0x0E0 ∧ slice w 11 0 ≠ 0x0EE) ∨
    ((opField w = 0x5 ∨ opField w = 0x9) ∧ nField w ≠ 0) ∨
    (opField w = 0x8 ∧ nField w ∈ [0x8, 0x9, 0xA, 0xB, 0xC, 0xD, 0xF]) ∨
    (opField w = 0xE ∧ kkField w ∉ [0x9E, 0xA1]) ∨
    (opField w = 0xF ∧ kkField w ∉ [0x07, 0x0A, 0x15, 0x18, 0x1E, 0x29, 0x33, 0x55, 0x65])

/-- A few words written out from R85's patterns (the numbers are D1, log 10) decode to the instructions they stand for. -/
def Obligations.SampleWordsDecode : Prop :=
  decodeWord 0b0000000011100000 = .ok .cls ∧
  decodeWord 0b0010001000010000 = .ok (.call 0x210) ∧
  decodeWord 0b1000000100100100 = .ok (.addReg 1 2) ∧
  decodeWord 0b1010001011110000 = .ok (.ldI 0x2F0) ∧
  decodeWord 0b1101000000010101 = .ok (.drw 0 1 5) ∧
  decodeWord 0b1110000010011110 = .ok (.skp 0) ∧
  decodeWord 0b1111001100001010 = .ok (.ldVxK 3)

/-! ## The step -/

/-- R81: the two cells at PC and PC + 1 make the word, big-endian; PC is advanced by 2 before decode and execute; and a
fetch out of range advances nothing and changes nothing. A step runs the decoded instruction. The 16-bit wrap of the
advance is the spec's decision D9. -/
def Obligations.StepFetchesAdvancesAndRuns : Prop :=
  ∀ s : State, s.await = false →
    (∀ i, InRange s s.pc.toNat 2 →
      decodeWord (wordOfBytes (s.byteAt s.pc.toNat) (s.byteAt (s.pc.toNat + 1))) = .ok i →
      step s = exec i { s with pc := s.pc + 2 }) ∧
    (s.cfg.addrPolicy = .fault → 0xFFF ≤ s.pc.toNat →
      ∃ t e, step s = .next t ∧ t = { s with outcome := .error e } ∧ e.kind = .addressOutOfRange)

/-- R202: a fetched word that is no instruction raises InvalidOpcode: the record names the word and where it was
fetched, and nothing but the post-fetch PC changes (R208, the spec's decision D16). -/
def Obligations.InvalidWordRaisesInvalidOpcode : Prop :=
  ∀ (s : State) (w : Word), s.await = false → InRange s s.pc.toNat 2 →
    w = wordOfBytes (s.byteAt s.pc.toNat) (s.byteAt (s.pc.toNat + 1)) → (∀ i, decodeWord w ≠ .ok i) →
    step s = .next { s with pc := s.pc + 2, outcome := .error ⟨.invalidOpcode, s.pc, some w, none⟩ }

/-- R221: while a key is awaited a step executes no instruction; with no key down nothing changes, and with a key down
`V[KX]` receives the number of a key that is down, the lowest one under the default KEY_SELECT, and the wait ends (the
spec's decisions D12, D13; log 3, 16). -/
def Obligations.AwaitingStepTakesKeyOrWaits : Prop :=
  ∀ s : State, s.await = true →
    (s.keypad = 0 → step s = .next { s with outcome := .ok }) ∧
    (s.keypad ≠ 0 → ∃ (t : State) (k : Key), step s = .next t ∧ s.keypad.getLsbD k.val = true ∧
      (t.reg s.kx).toNat = k.val ∧ (∀ r, r ≠ s.kx → t.reg r = s.reg r) ∧
      (s.cfg.keySelect = .lowest → ∀ j < k.val, s.keypad.getLsbD j = false) ∧
      t = { s with v := t.v, await := false, outcome := .ok })

/-- Every step from every state, and every instruction in every state, has a defined next state
(93_implementation_defined.md, end of part 1). -/
def Obligations.EveryStepAnswersNextState : Prop :=
  (∀ s : State, ∃ t, step s = .next t) ∧ (∀ (i : Instr) (s : State), ∃ t, exec i s = .next t)

/-! ## Errors -/

/-- R208: errors are precise. After a fetch error the state is the state before the step; after any other error it is
that state with the post-fetch PC; nothing else differs but the value the step returns. The spec's decision D16; that
the returned value stands in a field of the state is the model's choice (log 1). -/
def Obligations.ErrorsArePrecise : Prop :=
  ∀ (s t : State) (e : ErrorRecord), step s = .next t → t.outcome = .error e →
    (e.opcode = none → t = { s with outcome := .error e }) ∧
    (e.opcode ≠ none → t = { s with pc := s.pc + 2, outcome := .error e })

/-- R201: the record names the kind, the instruction address, the fetched word (absent only when no word was obtained)
and, for AddressOutOfRange only, the lowest address of the access above 0xFFF. The shape of the record is the spec's
decision D16. -/
def Obligations.ErrorRecordNamesFailingInstruction : Prop :=
  ∀ (s t : State) (e : ErrorRecord), step s = .next t → t.outcome = .error e →
    1 ≤ e.kind.code ∧ e.kind.code ≤ 5 ∧
    e.address = s.pc ∧
    (∀ w, s.fetch = .ok w → e.opcode = some w) ∧
    (∀ a, s.fetch = .error a → e.opcode = none ∧ e.kind = .addressOutOfRange) ∧
    (e.kind ≠ .addressOutOfRange → e.ea = none) ∧
    (e.kind = .addressOutOfRange → e.opcode = none → e.ea.map BitVec.toNat = some (max s.pc.toNat 0x1000)) ∧
    (e.kind = .addressOutOfRange → e.opcode ≠ none → e.ea.map BitVec.toNat = some (max s.i.toNat 0x1000))

/-- R200: which errors a step raises, and when: each kind exactly under its condition, and no error while a key is
awaited. The stack policy is the spec's decision D10, the address policy D8. -/
def Obligations.StepRaisesExactlyTheListedErrors : Prop :=
  ∀ (s t : State), step s = .next t →
    (s.await = true → t.outcome = .ok) ∧
    (s.await = false →
      ((∃ e, t.outcome = .error e ∧ e.kind = .invalidOpcode) ↔
        ∃ w, s.fetch = .ok w ∧ ∀ i, decodeWord w ≠ .ok i) ∧
      ((∃ e, t.outcome = .error e ∧ e.kind = .unimplemented) ↔
        s.cfg.fx0aMode = .unimplemented ∧ ∃ w x, s.fetch = .ok w ∧ decodeWord w = .ok (.ldVxK x)) ∧
      ((∃ e, t.outcome = .error e ∧ e.kind = .stackOverflow) ↔
        s.sp.val = 16 ∧ ∃ w nnn, s.fetch = .ok w ∧ decodeWord w = .ok (.call nnn)) ∧
      ((∃ e, t.outcome = .error e ∧ e.kind = .stackUnderflow) ↔
        s.sp.val = 0 ∧ ∃ w, s.fetch = .ok w ∧ decodeWord w = .ok .ret) ∧
      ((∃ e, t.outcome = .error e ∧ e.kind = .addressOutOfRange) ↔
        s.cfg.addrPolicy = .fault ∧
          (0xFFF ≤ s.pc.toNat ∨
            ∃ w i, s.fetch = .ok w ∧ decodeWord w = .ok i ∧
              ((∃ x y n, i = .drw x y n ∧ 1 ≤ n ∧ 0xFFF < s.i.toNat + n - 1) ∨
               (∃ x, i = .ldB x ∧ 0xFFF < s.i.toNat + 2) ∨
               (∃ x, (i = .storeRegs x ∨ i = .loadRegs x) ∧ 0xFFF < s.i.toNat + x.val)))))

/-- R206: under `ADDR_POLICY = FAULT` an access whose highest address exceeds 0xFFF raises AddressOutOfRange with
`ea = max(base, 0x1000)`, and changes nothing, for the fetch and the four data accesses; under `MASK` no step raises
it. The policies are the spec's decisions D8, D30. -/
def Obligations.AccessOutOfRangeChangesNothing : Prop :=
  (∀ (s : State), s.cfg.addrPolicy = .fault →
    (s.await = false → 0xFFF ≤ s.pc.toNat → step s =
      .next { s with outcome := .error ⟨.addressOutOfRange, s.pc, none,
        some (BitVec.ofNat 17 (max s.pc.toNat 0x1000))⟩ }) ∧
    (∀ x y n, 1 ≤ n → 0xFFF < s.i.toNat + n - 1 → exec (.drw x y n) s =
      .next { s with outcome := .error ⟨.addressOutOfRange, s.pc - 2, some (encode (.drw x y n)),
        some (BitVec.ofNat 17 (max s.i.toNat 0x1000))⟩ }) ∧
    (∀ x, 0xFFF < s.i.toNat + 2 → exec (.ldB x) s =
      .next { s with outcome := .error ⟨.addressOutOfRange, s.pc - 2, some (encode (.ldB x)),
        some (BitVec.ofNat 17 (max s.i.toNat 0x1000))⟩ }) ∧
    (∀ x : Reg, 0xFFF < s.i.toNat + x.val → exec (.storeRegs x) s =
      .next { s with outcome := .error ⟨.addressOutOfRange, s.pc - 2, some (encode (.storeRegs x)),
        some (BitVec.ofNat 17 (max s.i.toNat 0x1000))⟩ }) ∧
    (∀ x : Reg, 0xFFF < s.i.toNat + x.val → exec (.loadRegs x) s =
      .next { s with outcome := .error ⟨.addressOutOfRange, s.pc - 2, some (encode (.loadRegs x)),
        some (BitVec.ofNat 17 (max s.i.toNat 0x1000))⟩ })) ∧
  (∀ (s t : State) (e : ErrorRecord), s.cfg.addrPolicy = .mask → step s = .next t → t.outcome = .error e →
    e.kind ≠ .addressOutOfRange)

/-- `FAULT` only adds errors (20_memory.md R53, R66): a step that under `FAULT` ends without AddressOutOfRange does the
same under `MASK`. -/
def Obligations.MaskAgreesWithFaultInRange : Prop :=
  ∀ (s t : State), s.cfg.addrPolicy = .fault → step s = .next t →
    (∀ e, t.outcome = .error e → e.kind ≠ .addressOutOfRange) →
    step { s with cfg := { s.cfg with addrPolicy := .mask } } =
      .next { t with cfg := { t.cfg with addrPolicy := .mask } }

/-! ## Who writes what, over all instructions -/

/-- R20, R21: an instruction that ends with Ok writes no register but those it names as destination, and VF when it is
one of the six flag writers; an instruction that ends with an error writes none. That the logic operations, `7xkk` and
`Fx1E` write no flag is the spec's decision D19. -/
def Obligations.RegistersWrittenOnlyAsNamed : Prop :=
  ∀ (i : Instr) (s t : State) (r : Reg), exec i s = .next t →
    ((t.outcome = .ok → ¬ NamesDest i r ∧ ¬ (WritesFlag i ∧ r = vF)) → t.reg r = s.reg r)

/-- R21: VF after each of the six instructions that write it as a flag, whatever their destination is; and every other
instruction leaves VF alone unless it names VF as its destination (the spec's decision D19). -/
def Obligations.FlagRegisterAfterEachFlagWriter : Prop :=
  ∀ (i : Instr) (s t : State), exec i s = .next t → t.outcome = .ok →
    (match i with
     | .addReg x y => t.reg vF = if 255 < (s.reg x).toNat + (s.reg y).toNat then 1 else 0
     | .subReg x y => t.reg vF = if (s.reg y).toNat ≤ (s.reg x).toNat then 1 else 0
     | .shr x _ => (t.reg vF).toNat = (s.reg x).toNat % 2
     | .subn x y => t.reg vF = if (s.reg x).toNat ≤ (s.reg y).toNat then 1 else 0
     | .shl x _ => (t.reg vF).toNat = (s.reg x).toNat / 128
     | .drw _ _ _ => (t.reg vF = 0 ∨ t.reg vF = 1) ∧
         (t.reg vF = 1 ↔ ∃ r c, r < 32 ∧ c < 64 ∧ s.fb.pixel r c = true ∧ t.fb.pixel r c = false)
     | _ => NamesDest i vF ∨ t.reg vF = s.reg vF)

/-- R22 (D18, D21), R26, R27, R28: `I` is written by `Annn`, `Fx1E` and `Fx29` alone, `DT` by `Fx15`, `ST` by `Fx18`,
the keypad and the parameters by no instruction; so no instruction decrements a timer. -/
def Obligations.IndexTimersAndKeypadWriters : Prop :=
  ∀ (i : Instr) (s t : State), exec i s = .next t →
    (t.i.toNat = match i with
      | .ldI nnn => nnn.toNat
      | .addI x => (s.i.toNat + (s.reg x).toNat) % 65536
      | .ldF x => (s.reg x).toNat * 5
      | _ => s.i.toNat) ∧
    (t.dt = match i with
      | .ldDTVx x => s.reg x
      | _ => s.dt) ∧
    (t.st = match i with
      | .ldSTVx x => s.reg x
      | _ => s.st) ∧
    t.keypad = s.keypad ∧ t.cfg = s.cfg

/-- R23: how each instruction leaves PC, which holds the post-fetch PC when it starts: an instruction that ends with an
error leaves it there, a jump, call or return overwrites it, a skip adds 2 or nothing, and no other instruction writes
it. PC is 16 bits and never masked to 12 (the spec's decision D9). -/
def Obligations.ProgramCounterWriters : Prop :=
  ∀ (i : Instr) (s t : State), exec i s = .next t →
    (t.outcome ≠ .ok → t.pc = s.pc) ∧
    (t.outcome = .ok → match i with
      | .jp nnn => t.pc.toNat = nnn.toNat
      | .call nnn => t.pc.toNat = nnn.toNat
      | .ret => s.stack[s.sp.val - 1]? = some t.pc
      | .jpV0 nnn => t.pc.toNat = (nnn.toNat + (s.reg 0).toNat) % 65536
      | .seImm _ _ | .sneImm _ _ | .seReg _ _ | .sneReg _ _ | .skp _ | .sknp _ =>
          t.pc.toNat = s.pc.toNat ∨ t.pc.toNat = (s.pc.toNat + 2) % 65536
      | _ => t.pc = s.pc)

/-- R50, R24: memory is changed by `Fx33` and `Fx55` alone, the stack by CALL alone, `SP` by CALL and RET alone. -/
def Obligations.MemoryAndStackWriters : Prop :=
  ∀ (i : Instr) (s t : State), exec i s = .next t →
    ((∀ x, i ≠ .ldB x ∧ i ≠ .storeRegs x) → t.mem = s.mem ∧ ∀ a, t.byteAt a = s.byteAt a) ∧
    ((∀ nnn, i ≠ .call nnn) → t.stack = s.stack) ∧
    ((∀ nnn, i ≠ .call nnn) → i ≠ .ret → t.sp = s.sp) ∧
    (∀ j, j ≠ s.sp.val → t.stack[j]? = s.stack[j]?)

/-- R29, R30, R31: pixels are changed by CLS and DRW alone, REDRAW is set by every DRW that completes and touched by no
other instruction (D22), AWAIT and KX are written by `Fx0A` alone. -/
def Obligations.DisplayAndWaitWriters : Prop :=
  ∀ (i : Instr) (s t : State), exec i s = .next t →
    (i ≠ .cls → (∀ x y n, i ≠ .drw x y n) → t.fb = s.fb) ∧
    ((∃ x y n, i = .drw x y n) → t.outcome = .ok → t.redraw = true) ∧
    ((∀ x y n, i ≠ .drw x y n) → t.redraw = s.redraw) ∧
    ((∀ x, i ≠ .ldVxK x) → t.await = s.await ∧ t.kx = s.kx)

/-- R218: exactly one random byte is drawn per executed `Cxkk`, and none by anything else, a wait or an error among
them. The spec's decision D26; how the bytes are supplied and counted is the model's (log 5). -/
def Obligations.OneRandomDrawPerRnd : Prop :=
  ∀ (s t : State), step s = .next t →
    ((s.await = false ∧ ∃ w x kk, s.fetch = .ok w ∧ decodeWord w = .ok (.rnd x kk)) →
      t.rngDraws = s.rngDraws + 1 ∧ t.rngSupply = s.rngSupply.tail) ∧
    (¬ (s.await = false ∧ ∃ w x kk, s.fetch = .ok w ∧ decodeWord w = .ok (.rnd x kk)) →
      t.rngDraws = s.rngDraws ∧ t.rngSupply = s.rngSupply)

/-! ## Invariants -/

/-- R37: a step keeps the invariant; the canonical form of memory in it is the model's (log 8). -/
def Obligations.StepKeepsInvariant : Prop :=
  ∀ (s t : State), Inv s → step s = .next t → Inv t

/-- R37: every transaction, and so every history of transactions, keeps the invariant; the canonical form of memory in
it is the model's (log 8). -/
def Obligations.HistoriesKeepInvariant : Prop :=
  ∀ (ts : List Transaction) (s t : State), Inv s → runTransactions ts s = .next t → Inv t

/-- The state right after construction meets the invariant, whatever the parameters. That a key is awaited only under WAIT
is R37; the canonical form of memory in the invariant is the model's choice (log 8). -/
def Obligations.ConstructedStateMeetsInvariant : Prop :=
  ∀ cfg : Params, Inv (State.construct cfg)

/-- R35, R230: construction sets every element to its reset value, whatever the parameters, and the construct transaction
does so from every state. That this transaction on a running machine keeps the machine's parameters is the model's choice
(log 19). The zeros the source does not state are the spec's decision D15 (log 6), the glyph table is the machine's
parameter; the model's own fields but for the parameters are not mentioned. -/
def Obligations.ConstructionSetsResetValues : Prop :=
  (∀ cfg : Params, HasResetValues (State.construct cfg) ∧ (State.construct cfg).cfg = cfg) ∧
  HasResetValues State.reset ∧
  (∀ s : State, ∃ t, transact .construct s = .next (t, .done) ∧ HasResetValues t ∧ t.cfg = s.cfg)

/-! ## Display -/

/-- R100: CLS turns every pixel off and changes nothing else, REDRAW among it (the spec's decision D22). -/
def Obligations.ClsTurnsEveryPixelOff : Prop :=
  ∀ s : State, ∃ t, exec .cls s = .next t ∧
    (∀ r c, t.fb.pixel r c = false) ∧ t = { s with fb := t.fb, outcome := .ok }

/-- R101: a draw in range completes: the sprite is the `n` bytes at `I`, placed at column `V[x] mod 64`, row
`V[y] mod 32`, clipped at the edges; every pixel ends as its old value XOR the sprite's bit; VF is 1 exactly when a 1
bit fell on a lit pixel; REDRAW is set; nothing else changes. A draw out of range changes nothing. The bit order, the
clipping and the reading of both coordinates first are the spec's decisions D5, D6, D7 (log 12). -/
def Obligations.DrwXorsSpriteIntoScreen : Prop :=
  ∀ (s : State) (x y : Reg) (n : Nat),
    (InRange s s.i.toNat n → ∃ t, exec (.drw x y n) s = .next t ∧
      (∀ r c, r < 32 → c < 64 → t.fb.pixel r c =
        (s.fb.pixel r c ^^ spriteBit (s.bytesAt s.i.toNat n) ((s.reg y).toNat % 32) ((s.reg x).toNat % 64) r c)) ∧
      (t.reg vF = 0 ∨ t.reg vF = 1) ∧
      (t.reg vF = 1 ↔ ∃ r c, r < 32 ∧ c < 64 ∧ s.fb.pixel r c = true ∧
        spriteBit (s.bytesAt s.i.toNat n) ((s.reg y).toNat % 32) ((s.reg x).toNat % 64) r c = true) ∧
      (∀ r, r ≠ vF → t.reg r = s.reg r) ∧
      t = { s with v := t.v, fb := t.fb, redraw := true, outcome := .ok }) ∧
    (¬ InRange s s.i.toNat n → exec (.drw x y n) s =
      .next { s with outcome := .error ⟨.addressOutOfRange, s.pc - 2, some (encode (.drw x y n)),
        some (BitVec.ofNat 17 (max s.i.toNat 0x1000))⟩ })

/-- By the pseudocode of R101: drawing the same sprite twice at the same place restores the framebuffer, and the second
draw reports VF = 1 exactly when a 1 bit of the sprite falls on a pixel of the screen that was off before the first; so,
on a screen that is clear where the sprite is, exactly when the sprite has a 1 bit on the screen. On a lit screen this
departs from the sentence of the rule's corner case 7, where the pseudocode is followed (DEDUCED, log 23). The clipping,
the bit order and the order of the reads are the spec's decisions D5, D6, D7 (log 12), I unchanged D18 (log 20), the
accesses in range D8, D30 (log 21). VF is not a coordinate, since the first draw writes it. -/
def Obligations.DrawingTwiceRestoresScreen : Prop :=
  ∀ (s t u : State) (x y : Reg) (n : Nat), x ≠ vF → y ≠ vF → InRange s s.i.toNat n →
    exec (.drw x y n) s = .next t → exec (.drw x y n) t = .next u →
    u.fb = s.fb ∧
    (u.reg vF = 1 ↔ ∃ r c, r < 32 ∧ c < 64 ∧ s.fb.pixel r c = false ∧
      spriteBit (s.bytesAt s.i.toNat n) ((s.reg y).toNat % 32) ((s.reg x).toNat % 64) r c = true)

/-! ## Control flow -/

/-- R111, R205: RET pops the return address into PC, the slot keeping its value; on an empty stack it raises
StackUnderflow and pops nothing (the spec's decision D10). -/
def Obligations.RetPopsOrUnderflows : Prop :=
  ∀ s : State,
    (0 < s.sp.val → ∃ t, exec .ret s = .next t ∧ t.sp.val + 1 = s.sp.val ∧ s.stack[t.sp.val]? = some t.pc ∧
      t = { s with sp := t.sp, pc := t.pc, outcome := .ok }) ∧
    (s.sp.val = 0 → exec .ret s =
      .next { s with outcome := .error ⟨.stackUnderflow, s.pc - 2, some 0x00EE, none⟩ })

/-- R113, R204: CALL pushes the post-fetch PC and jumps; with 16 addresses stacked it raises StackOverflow, and neither
pushes nor jumps (the spec's decision D10). -/
def Obligations.CallPushesOrOverflows : Prop :=
  ∀ (s : State) (nnn : Addr12),
    (s.sp.val < 16 → ∃ t, exec (.call nnn) s = .next t ∧ t.sp.val = s.sp.val + 1 ∧
      t.stack[s.sp.val]? = some s.pc ∧ (∀ j, j ≠ s.sp.val → t.stack[j]? = s.stack[j]?) ∧
      t.pc.toNat = nnn.toNat ∧ t = { s with stack := t.stack, sp := t.sp, pc := t.pc, outcome := .ok }) ∧
    (s.sp.val = 16 → exec (.call nnn) s =
      .next { s with outcome := .error ⟨.stackOverflow, s.pc - 2, some (encode (.call nnn)), none⟩ })

/-- The source's round trip (95_test_vectors.md S8): a CALL that completes, followed at the called address by RET,
brings back the PC after the CALL and the stack depth. -/
def Obligations.CallThenRetRestoresPc : Prop :=
  ∀ (s t u : State) (nnn : Addr12) (p : Word), exec (.call nnn) s = .next t → t.outcome = .ok →
    exec .ret { t with pc := p } = .next u →
    u.pc = s.pc ∧ u.sp = s.sp ∧ u.outcome = .ok

/-- R112: JP puts the address field into PC, odd or even, and changes nothing else. -/
def Obligations.JpSetsPc : Prop :=
  ∀ (s : State) (nnn : Addr12),
    ∃ t, exec (.jp nnn) s = .next t ∧ t.pc.toNat = nnn.toNat ∧ t = { s with pc := t.pc, outcome := .ok }

/-- R118: JP V0 puts the address field plus V0 into PC: the sum is at most 0x10FE, so it is exact. That it is not masked
to 12 bits is the spec's decision D9. -/
def Obligations.JpV0AddsV0ToTarget : Prop :=
  ∀ (s : State) (nnn : Addr12),
    ∃ t, exec (.jpV0 nnn) s = .next t ∧ t.pc.toNat = nnn.toNat + (s.reg 0).toNat ∧ t.pc.toNat ≤ 0x10FE ∧
      t = { s with pc := t.pc, outcome := .ok }

/-- R114 to R117: the four skips add 2 to the post-fetch PC, mod 65536, exactly when their condition holds, and change
nothing else. -/
def Obligations.SkipsAdvancePcWhenConditionHolds : Prop :=
  ∀ (s : State) (x y : Reg) (kk : Byte),
    (∃ t, exec (.seImm x kk) s = .next t ∧ t = { s with pc := t.pc, outcome := .ok } ∧
      t.pc.toNat = if (s.reg x).toNat = kk.toNat then (s.pc.toNat + 2) % 65536 else s.pc.toNat) ∧
    (∃ t, exec (.sneImm x kk) s = .next t ∧ t = { s with pc := t.pc, outcome := .ok } ∧
      t.pc.toNat = if (s.reg x).toNat = kk.toNat then s.pc.toNat else (s.pc.toNat + 2) % 65536) ∧
    (∃ t, exec (.seReg x y) s = .next t ∧ t = { s with pc := t.pc, outcome := .ok } ∧
      t.pc.toNat = if (s.reg x).toNat = (s.reg y).toNat then (s.pc.toNat + 2) % 65536 else s.pc.toNat) ∧
    (∃ t, exec (.sneReg x y) s = .next t ∧ t = { s with pc := t.pc, outcome := .ok } ∧
      t.pc.toNat = if (s.reg x).toNat = (s.reg y).toNat then s.pc.toNat else (s.pc.toNat + 2) % 65536)

/-- R171, R172: the two key tests; a key number above 15 is never pressed (the spec's decision D14; log 15). -/
def Obligations.KeySkipsTestKeypadBit : Prop :=
  ∀ (s : State) (x : Reg),
    (∃ t, exec (.skp x) s = .next t ∧ t = { s with pc := t.pc, outcome := .ok } ∧
      t.pc.toNat = if (s.reg x).toNat ≤ 15 ∧ s.keypad.getLsbD (s.reg x).toNat = true
        then (s.pc.toNat + 2) % 65536 else s.pc.toNat) ∧
    (∃ t, exec (.sknp x) s = .next t ∧ t = { s with pc := t.pc, outcome := .ok } ∧
      t.pc.toNat = if (s.reg x).toNat ≤ 15 ∧ s.keypad.getLsbD (s.reg x).toNat = true
        then s.pc.toNat else (s.pc.toNat + 2) % 65536)

/-! ## Load and arithmetic -/

/-- R130, R132, R174: LD Vx, kk, LD Vx, Vy and LD Vx, DT copy their source to the destination and change nothing else. VF
is an ordinary destination; that LD leaves VF alone where VF is not the destination is the spec's decision D19 (R129;
log 20). -/
def Obligations.RegisterLoadsCopyTheirSource : Prop :=
  ∀ (s : State) (x y : Reg) (kk : Byte),
    (∃ t, exec (.ldImm x kk) s = .next t ∧ t.reg x = kk ∧ (∀ r, r ≠ x → t.reg r = s.reg r) ∧
      t = { s with v := t.v, outcome := .ok }) ∧
    (∃ t, exec (.ldReg x y) s = .next t ∧ t.reg x = s.reg y ∧ (∀ r, r ≠ x → t.reg r = s.reg r) ∧
      t = { s with v := t.v, outcome := .ok }) ∧
    (∃ t, exec (.ldVxDT x) s = .next t ∧ t.reg x = s.dt ∧ (∀ r, r ≠ x → t.reg r = s.reg r) ∧
      t = { s with v := t.v, outcome := .ok })

/-- R131: ADD Vx, kk wraps modulo 256 and sets no flag. -/
def Obligations.AddImmediateWrapsWithoutFlag : Prop :=
  ∀ (s : State) (x : Reg) (kk : Byte), ∃ t, exec (.addImm x kk) s = .next t ∧
    (t.reg x).toNat = ((s.reg x).toNat + kk.toNat) % 256 ∧ (∀ r, r ≠ x → t.reg r = s.reg r) ∧
    t = { s with v := t.v, outcome := .ok }

/-- R133 to R135: the bitwise operations, bit by bit; VF is left unchanged unless it is the destination (the
spec's decision D19; log 20). -/
def Obligations.LogicOperationsAreBitwise : Prop :=
  ∀ (s : State) (x y : Reg),
    (∃ t, exec (.orReg x y) s = .next t ∧ (∀ k, (t.reg x).getLsbD k = ((s.reg x).getLsbD k || (s.reg y).getLsbD k)) ∧
      (∀ r, r ≠ x → t.reg r = s.reg r) ∧ t = { s with v := t.v, outcome := .ok }) ∧
    (∃ t, exec (.andReg x y) s = .next t ∧ (∀ k, (t.reg x).getLsbD k = ((s.reg x).getLsbD k && (s.reg y).getLsbD k)) ∧
      (∀ r, r ≠ x → t.reg r = s.reg r) ∧ t = { s with v := t.v, outcome := .ok }) ∧
    (∃ t, exec (.xorReg x y) s = .next t ∧ (∀ k, (t.reg x).getLsbD k = ((s.reg x).getLsbD k ^^ (s.reg y).getLsbD k)) ∧
      (∀ r, r ≠ x → t.reg r = s.reg r) ∧ t = { s with v := t.v, outcome := .ok })

/-- R136: ADD Vx, Vy: the sum modulo 256, then VF = 1 exactly when the sum exceeds 255; for `x = 15` the flag wins. -/
def Obligations.AddRegistersSetsCarryLast : Prop :=
  ∀ (s : State) (x y : Reg), ∃ t, exec (.addReg x y) s = .next t ∧
    (x ≠ vF → (t.reg x).toNat = ((s.reg x).toNat + (s.reg y).toNat) % 256) ∧
    (t.reg vF = if 255 < (s.reg x).toNat + (s.reg y).toNat then 1 else 0) ∧
    (∀ r, r ≠ x → r ≠ vF → t.reg r = s.reg r) ∧ t = { s with v := t.v, outcome := .ok }

/-- R137, R139: SUB and SUBN: the difference modulo 256 to `V[x]`, then VF = 1 exactly when there is no borrow. -/
def Obligations.SubtractionsSetNotBorrowLast : Prop :=
  ∀ (s : State) (x y : Reg),
    (∃ t, exec (.subReg x y) s = .next t ∧
      (x ≠ vF → ((t.reg x).toNat : Int) = ((s.reg x).toNat - (s.reg y).toNat : Int) % 256) ∧
      (t.reg vF = if (s.reg y).toNat ≤ (s.reg x).toNat then 1 else 0) ∧
      (∀ r, r ≠ x → r ≠ vF → t.reg r = s.reg r) ∧ t = { s with v := t.v, outcome := .ok }) ∧
    (∃ t, exec (.subn x y) s = .next t ∧
      (x ≠ vF → ((t.reg x).toNat : Int) = ((s.reg y).toNat - (s.reg x).toNat : Int) % 256) ∧
      (t.reg vF = if (s.reg x).toNat ≤ (s.reg y).toNat then 1 else 0) ∧
      (∀ r, r ≠ x → r ≠ vF → t.reg r = s.reg r) ∧ t = { s with v := t.v, outcome := .ok })

/-- R138, R140: the shifts by one, in place, for every value of the ignored field `y` (the spec's decision D20; log 20);
VF is the bit shifted out. -/
def Obligations.ShiftsSetDroppedBitLast : Prop :=
  ∀ (s : State) (x y : Reg),
    (∃ t, exec (.shr x y) s = .next t ∧
      (x ≠ vF → (t.reg x).toNat = (s.reg x).toNat / 2) ∧ (t.reg vF).toNat = (s.reg x).toNat % 2 ∧
      (∀ r, r ≠ x → r ≠ vF → t.reg r = s.reg r) ∧ t = { s with v := t.v, outcome := .ok }) ∧
    (∃ t, exec (.shl x y) s = .next t ∧
      (x ≠ vF → (t.reg x).toNat = (s.reg x).toNat * 2 % 256) ∧ (t.reg vF).toNat = (s.reg x).toNat / 128 ∧
      (∀ r, r ≠ x → r ≠ vF → t.reg r = s.reg r) ∧ t = { s with v := t.v, outcome := .ok })

/-! ## Index register and memory -/

/-- R150, R151, R152: the three writers of `I`; none writes a register or a flag (the spec's decision D19), and `Fx29`
multiplies the whole byte (D21; log 20). -/
def Obligations.IndexRegisterInstructions : Prop :=
  ∀ (s : State) (x : Reg) (nnn : Addr12),
    (∃ t, exec (.ldI nnn) s = .next t ∧ t.i.toNat = nnn.toNat ∧ t = { s with i := t.i, outcome := .ok }) ∧
    (∃ t, exec (.addI x) s = .next t ∧ t.i.toNat = (s.i.toNat + (s.reg x).toNat) % 65536 ∧
      t = { s with i := t.i, outcome := .ok }) ∧
    (∃ t, exec (.ldF x) s = .next t ∧ t.i.toNat = (s.reg x).toNat * 5 ∧ t = { s with i := t.i, outcome := .ok })

/-- The source's fifth property (95_test_vectors.md S5): while memory still holds the glyph table, `Fx29` for a digit
0 to 15 points `I` at the five bytes of its glyph. -/
def Obligations.GlyphAddressPointsAtGlyph : Prop :=
  ∀ (s t : State) (x : Reg), (∀ a, a < 80 → s.byteAt a = s.cfg.font.byte a) → (s.reg x).toNat ≤ 15 →
    exec (.ldF x) s = .next t →
    ∀ k, k < 5 → t.byteAt (t.i.toNat + k) = s.cfg.font.byte (5 * (s.reg x).toNat + k)

/-- R153: LD B in range stores the three decimal digits at `I`, `I + 1`, `I + 2` and changes no other byte and nothing else,
`I` among it (the spec's decision D18; log 20); out of range it stores no byte and raises AddressOutOfRange with the
record of R201 and R206 (D16; log 17). The address policy and the check of the whole transfer are D8 and D30 (log 21),
the canonical form of memory in the premise is the model's (log 8). -/
def Obligations.BcdStoresThreeDigits : Prop :=
  ∀ (s : State) (x : Reg),
    (Inv s → InRange s s.i.toNat 3 → ∃ t, exec (.ldB x) s = .next t ∧
      (t.byteAt s.i.toNat).toNat = (s.reg x).toNat / 100 ∧
      (t.byteAt (s.i.toNat + 1)).toNat = (s.reg x).toNat / 10 % 10 ∧
      (t.byteAt (s.i.toNat + 2)).toNat = (s.reg x).toNat % 10 ∧
      (∀ a, ¬ InTransfer s.i.toNat 3 a → t.byteAt a = s.byteAt a) ∧
      t = { s with mem := t.mem, outcome := .ok }) ∧
    (¬ InRange s s.i.toNat 3 → exec (.ldB x) s =
      .next { s with outcome := .error ⟨.addressOutOfRange, s.pc - 2, some (encode (.ldB x)),
        some (BitVec.ofNat 17 (max s.i.toNat 0x1000))⟩ })

/-- R154: LD [I], Vx in range stores `V0` to `V[x]` at `I` to `I + x`, and changes no other byte and nothing else, `I`
among them (the spec's decision D18); out of range it stores nothing and raises AddressOutOfRange. -/
def Obligations.StoreRegistersWritesBlock : Prop :=
  ∀ (s : State) (x : Reg),
    (Inv s → InRange s s.i.toNat (x.val + 1) → ∃ t, exec (.storeRegs x) s = .next t ∧
      (∀ k : Reg, k.val ≤ x.val → t.byteAt (s.i.toNat + k.val) = s.reg k) ∧
      (∀ a, ¬ InTransfer s.i.toNat (x.val + 1) a → t.byteAt a = s.byteAt a) ∧
      t = { s with mem := t.mem, outcome := .ok }) ∧
    (¬ InRange s s.i.toNat (x.val + 1) → exec (.storeRegs x) s =
      .next { s with outcome := .error ⟨.addressOutOfRange, s.pc - 2, some (encode (.storeRegs x)),
        some (BitVec.ofNat 17 (max s.i.toNat 0x1000))⟩ })

/-- R155: LD Vx, [I] in range loads `V0` to `V[x]` from `I` to `I + x` and changes nothing else, `I` among them (the
spec's decision D18); out of range it loads nothing and raises AddressOutOfRange. -/
def Obligations.LoadRegistersReadsBlock : Prop :=
  ∀ (s : State) (x : Reg),
    (InRange s s.i.toNat (x.val + 1) → ∃ t, exec (.loadRegs x) s = .next t ∧
      (∀ k : Reg, k.val ≤ x.val → t.reg k = s.byteAt (s.i.toNat + k.val)) ∧
      (∀ k : Reg, x.val < k.val → t.reg k = s.reg k) ∧
      t = { s with v := t.v, outcome := .ok }) ∧
    (¬ InRange s s.i.toNat (x.val + 1) → exec (.loadRegs x) s =
      .next { s with outcome := .error ⟨.addressOutOfRange, s.pc - 2, some (encode (.loadRegs x)),
        some (BitVec.ofNat 17 (max s.i.toNat 0x1000))⟩ })

/-- `Fx65` is the inverse of `Fx55` (R154, R155): whatever the registers have become in between, a load from the block
a store wrote brings the stored values back. -/
def Obligations.LoadAfterStoreRestoresRegisters : Prop :=
  ∀ (s t u : State) (x : Reg) (v : Vector Byte 16), Inv s → InRange s s.i.toNat (x.val + 1) →
    exec (.storeRegs x) s = .next t → exec (.loadRegs x) { t with v := v } = .next u →
    ∀ k : Reg, k.val ≤ x.val → u.reg k = s.reg k

/-- R63: a store is seen by the next fetch: when `Fx55` stores the two bytes of a word where the next instruction is, the
next fetch obtains that word. -/
def Obligations.StoreIsSeenByNextFetch : Prop :=
  ∀ (s t : State) (x : Reg), Inv s → InRange s s.i.toNat (x.val + 1) → InRange s s.pc.toNat 2 →
    1 ≤ x.val → s.i = s.pc → exec (.storeRegs x) s = .next t →
    t.fetch = .ok (wordOfBytes (s.reg 0) (s.reg 1))

/-- R58: a write changes exactly the cell addressed, and a read returns the last value written. -/
def Obligations.WriteChangesExactlyOneCell : Prop :=
  ∀ (s : State) (a c : Nat) (b : Byte), Inv s →
    (cellOf c = cellOf a → (s.putByte a b).byteAt c = b) ∧
    (cellOf c ≠ cellOf a → (s.putByte a b).byteAt c = s.byteAt c)

/-- The canonical form of memory, which is the model's choice and no rule of the spec (log 8), is one: memories in that form
that read alike at every address are the same list, so that equality of states is equality of what memory holds. -/
def Obligations.CanonicalMemoriesThatReadAlikeAreEqual : Prop :=
  ∀ (f : Font) (m m' : Memory), Memory.wf f m → Memory.wf f m' →
    (∀ a, Memory.read f m a = Memory.read f m' a) → m = m'

/-! ## Random, timers, keypad -/

/-- R170: RND writes the drawn byte AND `kk`: the byte is the oldest one the host has supplied, and else any value, so
that only the bits of `kk` can be set. How the bytes reach the core is the model's choice (log 5). -/
def Obligations.RndMasksDrawnByte : Prop :=
  ∀ (s : State) (x : Reg) (kk : Byte), ∃ (t : State) (r : Byte), exec (.rnd x kk) s = .next t ∧
    t.reg x = r &&& kk ∧ (∀ b bs, s.rngSupply = b :: bs → r = b ∧ t.rngSupply = bs) ∧
    (∀ k, kk.getLsbD k = false → (t.reg x).getLsbD k = false) ∧
    t.rngDraws = s.rngDraws + 1 ∧ (∀ q, q ≠ x → t.reg q = s.reg q) ∧
    t = { s with v := t.v, rngSupply := t.rngSupply, rngDraws := t.rngDraws, outcome := .ok }

/-- R175, R176: the two timer writes. -/
def Obligations.TimerWritesCopyRegister : Prop :=
  ∀ (s : State) (x : Reg),
    exec (.ldDTVx x) s = .next { s with dt := s.reg x, outcome := .ok } ∧
    exec (.ldSTVx x) s = .next { s with st := s.reg x, outcome := .ok }

/-- R173: `Fx0A` under WAIT starts the wait, whatever keys are down, and the step after it takes a key that is down or
changes nothing; under UNIMPLEMENTED it raises Unimplemented. The spec's decisions D12, D13 (log 3, 16). -/
def Obligations.WaitForKeyStartsWaitOrRaises : Prop :=
  ∀ (s : State) (x : Reg),
    (s.cfg.fx0aMode = .wait → ∃ t, exec (.ldVxK x) s = .next t ∧
      t = { s with await := true, kx := x, outcome := .ok } ∧
      (t.keypad = 0 → step t = .next t) ∧
      (t.keypad ≠ 0 → ∃ u, step t = .next u ∧ (u.reg x).toNat < 16 ∧
        t.keypad.getLsbD (u.reg x).toNat = true ∧ (∀ r, r ≠ x → u.reg r = s.reg r) ∧
        u = { t with v := u.v, await := false })) ∧
    (s.cfg.fx0aMode = .unimplemented → exec (.ldVxK x) s =
      .next { s with outcome := .error ⟨.unimplemented, s.pc - 2, some (encode (.ldVxK x)), none⟩ })

/-! ## The host's transactions -/

/-- R65: `load` copies the image to 0x200 on and changes nothing else; an image of more than 3584 bytes is refused with
no change (the spec's decision D23; log 18). -/
def Obligations.LoadCopiesImageVerbatim : Prop :=
  ∀ (s : State) (image : List Byte), Inv s →
    (image.length ≤ 3584 → ∃ t, transact (.load image) s = .next (t, .done) ∧
      (∀ j (h : j < image.length), t.byteAt (0x200 + j) = image[j]) ∧
      (∀ a, a < 4096 → (a < 0x200 ∨ 0x200 + image.length ≤ a) → t.byteAt a = s.byteAt a) ∧
      t = { s with mem := t.mem }) ∧
    (3584 < image.length → transact (.load image) s = .next (s, .refused))

/-- R214: a tick takes 1 from each timer that is above 0, both of them (the spec's decision D24), and changes nothing
else. -/
def Obligations.TickDecrementsBothTimers : Prop :=
  ∀ s : State, ∃ t, transact .tick s = .next (t, .done) ∧
    t.dt.toNat = s.dt.toNat - 1 ∧ t.st.toNat = s.st.toNat - 1 ∧ t = { s with dt := t.dt, st := t.st }

/-- R216: key_down and key_up set and clear one bit of the keypad; a key number above 15, which is
outside the interface, is refused with no change (the model's choice, log 18). -/
def Obligations.KeyTransactionsChangeOneBit : Prop :=
  ∀ (s : State) (k : Nat),
    (k ≤ 15 →
      (∃ t, transact (.keyDown k) s = .next (t, .done) ∧ t.keypad.getLsbD k = true ∧
        (∀ j, j ≠ k → t.keypad.getLsbD j = s.keypad.getLsbD j) ∧ t = { s with keypad := t.keypad }) ∧
      (∃ t, transact (.keyUp k) s = .next (t, .done) ∧ t.keypad.getLsbD k = false ∧
        (∀ j, j ≠ k → t.keypad.getLsbD j = s.keypad.getLsbD j) ∧ t = { s with keypad := t.keypad })) ∧
    (15 < k → transact (.keyDown k) s = .next (s, .refused) ∧ transact (.keyUp k) s = .next (s, .refused))

/-- R217, R215: what the host reads has no side effect, and it can clear REDRAW. The status read is the spec's decision
D31. -/
def Obligations.HostReadsChangeNothing : Prop :=
  ∀ s : State,
    transact .fbRead s = .next (s, .pixels s.fb) ∧
    transact .redrawRead s = .next (s, .redraw s.redraw) ∧
    transact .statusRead s = .next (s, .status s.await s.dt s.st) ∧
    transact .redrawClear s = .next ({ s with redraw := false }, .done)

/-! ## Whole-machine results -/

/-- R240: once a run has ended, a step leaves the whole state unchanged (but for the value it returns), and the run is
still ended. -/
def Obligations.EndedRunStaysEnded : Prop :=
  ∀ s : State, Ended s → ∃ t, step s = .next t ∧ t = { s with outcome := .ok } ∧ Ended t

/-- R27, R217: no instruction observes ST or REDRAW: two states that differ in these alone step to states that differ in
these alone. -/
def Obligations.SoundTimerAndRedrawUnobserved : Prop :=
  ∀ (s t : State) (b : Byte) (f : Bool), step s = .next t →
    ∃ u, step { s with st := b, redraw := f } = .next u ∧ u = { t with st := u.st, redraw := u.redraw }

/-- R24: slots above the stack pointer are unobservable: whatever stands there, a step gives the same state but for slots
above the stack pointer. -/
def Obligations.StaleStackSlotsUnobserved : Prop :=
  ∀ (s t : State) (stack : Vector Word 16), (∀ j, j < s.sp.val → stack[j]? = s.stack[j]?) → step s = .next t →
    ∃ u, step { s with stack := stack } = .next u ∧ u = { t with stack := u.stack } ∧
      ∀ j, j < t.sp.val → u.stack[j]? = t.stack[j]?
end

