-- ==== Sys2Proof/Laws/Decode.lean ====
section
/-! SUPPORT. The fields of an encoded word are the fields it was made from (30_encoding.md R82, R83), byte order
(20_memory.md R54), and what the decoder answers on the words of each family (R86). -/

namespace Sys2Proof

/-! ## Fields of the four formats -/

theorem opField_encNNN (op : Nat) (nnn : Addr12) (h : op < 16) : opField (encNNN op nnn) = op := by
  have := nnn.isLt
  simp only [opField, slice, encNNN, BitVec.toNat_ofNat]
  omega

@[simp] theorem nnnField_encNNN (op : Nat) (nnn : Addr12) : nnnField (encNNN op nnn) = nnn := by
  have := nnn.isLt
  apply BitVec.eq_of_toNat_eq
  simp only [nnnField, slice, encNNN, BitVec.toNat_ofNat]
  omega

theorem opField_encXKK (op : Nat) (x : Reg) (kk : Byte) (h : op < 16) : opField (encXKK op x kk) = op := by
  have := x.isLt
  have := kk.isLt
  simp only [opField, slice, encXKK, BitVec.toNat_ofNat]
  omega

@[simp] theorem xField_encXKK (op : Nat) (x : Reg) (kk : Byte) : xField (encXKK op x kk) = x := by
  have := x.isLt
  have := kk.isLt
  apply Fin.ext
  simp only [xField, slice, encXKK, BitVec.toNat_ofNat]
  omega

@[simp] theorem kkImm_encXKK (op : Nat) (x : Reg) (kk : Byte) : kkImm (encXKK op x kk) = kk := by
  have := x.isLt
  have := kk.isLt
  apply BitVec.eq_of_toNat_eq
  simp only [kkImm, slice, encXKK, BitVec.toNat_ofNat]
  omega

theorem opField_encXYN (op : Nat) (x y : Reg) (n : Nat) (h : op < 16) (hn : n < 16) :
    opField (encXYN op x y n) = op := by
  have := x.isLt
  have := y.isLt
  simp only [opField, slice, encXYN, BitVec.toNat_ofNat]
  omega

theorem xField_encXYN (op : Nat) (x y : Reg) (n : Nat) (hn : n < 16) : xField (encXYN op x y n) = x := by
  have := x.isLt
  have := y.isLt
  apply Fin.ext
  simp only [xField, slice, encXYN, BitVec.toNat_ofNat]
  omega

theorem yField_encXYN (op : Nat) (x y : Reg) (n : Nat) (hn : n < 16) : yField (encXYN op x y n) = y := by
  have := x.isLt
  have := y.isLt
  apply Fin.ext
  simp only [yField, slice, encXYN, BitVec.toNat_ofNat]
  omega

theorem nField_encXYN (op : Nat) (x y : Reg) (n : Nat) (hn : n < 16) : nField (encXYN op x y n) = n := by
  have := x.isLt
  have := y.isLt
  simp only [nField, slice, encXYN, BitVec.toNat_ofNat]
  omega

theorem opField_encX (op : Nat) (x : Reg) (ss : Nat) (h : op < 16) (hs : ss < 256) : opField (encX op x ss) = op := by
  have := x.isLt
  simp only [opField, slice, encX, BitVec.toNat_ofNat]
  omega

theorem xField_encX (op : Nat) (x : Reg) (ss : Nat) (hs : ss < 256) : xField (encX op x ss) = x := by
  have := x.isLt
  apply Fin.ext
  simp only [xField, slice, encX, BitVec.toNat_ofNat]
  omega

theorem kkField_encX (op : Nat) (x : Reg) (ss : Nat) (hs : ss < 256) : kkField (encX op x ss) = ss := by
  have := x.isLt
  simp only [kkField, slice, encX, BitVec.toNat_ofNat]
  omega

/-! ## A word from its fields -/

/-- A word is its four nibbles. -/
theorem word_eq_fields (w : Word) : w = encXYN (opField w) (xField w) (yField w) (nField w) := by
  apply BitVec.eq_of_toNat_eq
  have := w.isLt
  simp only [opField, xField, yField, nField, slice, encXYN, BitVec.toNat_ofNat]
  omega

/-- A word is its first two nibbles and its low byte. -/
theorem word_eq_xkk (w : Word) : w = encXKK (opField w) (xField w) (kkImm w) := by
  apply BitVec.eq_of_toNat_eq
  have := w.isLt
  simp only [opField, xField, kkImm, slice, encXKK, BitVec.toNat_ofNat]
  omega

/-- The same with the low byte as a number. -/
theorem word_eq_x (w : Word) : w = encX (opField w) (xField w) (kkField w) := by
  apply BitVec.eq_of_toNat_eq
  have := w.isLt
  simp only [opField, xField, kkField, slice, encX, BitVec.toNat_ofNat]
  omega

/-- A word is its first nibble and its address field. -/
theorem word_eq_nnn (w : Word) : w = encNNN (opField w) (nnnField w) := by
  apply BitVec.eq_of_toNat_eq
  have := w.isLt
  simp only [opField, nnnField, slice, encNNN, BitVec.toNat_ofNat]
  omega

theorem opField_lt (w : Word) : opField w < 16 := Nat.mod_lt _ (by decide)

theorem nField_lt (w : Word) : nField w < 16 := Nat.mod_lt _ (by decide)

/-! ## Bytes -/

/-- Big-endian: the two bytes of a word make it up again (R54). -/
@[simp] theorem wordOfBytes_hiByte_loByte (w : Word) : wordOfBytes (hiByte w) (loByte w) = w := by
  apply BitVec.eq_of_toNat_eq
  have := w.isLt
  simp only [wordOfBytes, hiByte, loByte, BitVec.toNat_ofNat]
  omega

@[simp] theorem hiByte_wordOfBytes (a b : Byte) : hiByte (wordOfBytes a b) = a := by
  apply BitVec.eq_of_toNat_eq
  have := a.isLt
  have := b.isLt
  simp only [wordOfBytes, hiByte, BitVec.toNat_ofNat]
  omega

@[simp] theorem loByte_wordOfBytes (a b : Byte) : loByte (wordOfBytes a b) = b := by
  apply BitVec.eq_of_toNat_eq
  have := a.isLt
  have := b.isLt
  simp only [wordOfBytes, loByte, BitVec.toNat_ofNat]
  omega

end Sys2Proof
end

