-- ==== Sys2Proof/Laws/State.lean ====
section
/-! SUPPORT. For each update of State, what each field reads afterwards (true by rfl), and the same for the two reads
the claims use, `reg` and `byteAt`. -/

namespace Sys2Proof.Machine

variable (s : State)

/-! ### putByte -/

@[simp] theorem State.putByte_mem (ea : Nat) (b : Byte) : (s.putByte ea b).mem = Memory.write s.cfg.font s.mem (cellOf ea) b := rfl
@[simp] theorem State.putByte_v (ea : Nat) (b : Byte) : (s.putByte ea b).v = s.v := rfl
@[simp] theorem State.putByte_i (ea : Nat) (b : Byte) : (s.putByte ea b).i = s.i := rfl
@[simp] theorem State.putByte_pc (ea : Nat) (b : Byte) : (s.putByte ea b).pc = s.pc := rfl
@[simp] theorem State.putByte_stack (ea : Nat) (b : Byte) : (s.putByte ea b).stack = s.stack := rfl
@[simp] theorem State.putByte_sp (ea : Nat) (b : Byte) : (s.putByte ea b).sp = s.sp := rfl
@[simp] theorem State.putByte_dt (ea : Nat) (b : Byte) : (s.putByte ea b).dt = s.dt := rfl
@[simp] theorem State.putByte_st (ea : Nat) (b : Byte) : (s.putByte ea b).st = s.st := rfl
@[simp] theorem State.putByte_keypad (ea : Nat) (b : Byte) : (s.putByte ea b).keypad = s.keypad := rfl
@[simp] theorem State.putByte_fb (ea : Nat) (b : Byte) : (s.putByte ea b).fb = s.fb := rfl
@[simp] theorem State.putByte_redraw (ea : Nat) (b : Byte) : (s.putByte ea b).redraw = s.redraw := rfl
@[simp] theorem State.putByte_await (ea : Nat) (b : Byte) : (s.putByte ea b).await = s.await := rfl
@[simp] theorem State.putByte_kx (ea : Nat) (b : Byte) : (s.putByte ea b).kx = s.kx := rfl
@[simp] theorem State.putByte_cfg (ea : Nat) (b : Byte) : (s.putByte ea b).cfg = s.cfg := rfl
@[simp] theorem State.putByte_rngSupply (ea : Nat) (b : Byte) : (s.putByte ea b).rngSupply = s.rngSupply := rfl
@[simp] theorem State.putByte_rngDraws (ea : Nat) (b : Byte) : (s.putByte ea b).rngDraws = s.rngDraws := rfl
@[simp] theorem State.putByte_outcome (ea : Nat) (b : Byte) : (s.putByte ea b).outcome = s.outcome := rfl
@[simp] theorem State.putByte_reg (ea : Nat) (b : Byte) (y : Reg) : (s.putByte ea b).reg y = s.reg y := rfl

/-! ### setReg -/

@[simp] theorem State.setReg_mem (x : Reg) (b : Byte) : (s.setReg x b).mem = s.mem := rfl
@[simp] theorem State.setReg_v (x : Reg) (b : Byte) : (s.setReg x b).v = s.v.set x b := rfl
@[simp] theorem State.setReg_i (x : Reg) (b : Byte) : (s.setReg x b).i = s.i := rfl
@[simp] theorem State.setReg_pc (x : Reg) (b : Byte) : (s.setReg x b).pc = s.pc := rfl
@[simp] theorem State.setReg_stack (x : Reg) (b : Byte) : (s.setReg x b).stack = s.stack := rfl
@[simp] theorem State.setReg_sp (x : Reg) (b : Byte) : (s.setReg x b).sp = s.sp := rfl
@[simp] theorem State.setReg_dt (x : Reg) (b : Byte) : (s.setReg x b).dt = s.dt := rfl
@[simp] theorem State.setReg_st (x : Reg) (b : Byte) : (s.setReg x b).st = s.st := rfl
@[simp] theorem State.setReg_keypad (x : Reg) (b : Byte) : (s.setReg x b).keypad = s.keypad := rfl
@[simp] theorem State.setReg_fb (x : Reg) (b : Byte) : (s.setReg x b).fb = s.fb := rfl
@[simp] theorem State.setReg_redraw (x : Reg) (b : Byte) : (s.setReg x b).redraw = s.redraw := rfl
@[simp] theorem State.setReg_await (x : Reg) (b : Byte) : (s.setReg x b).await = s.await := rfl
@[simp] theorem State.setReg_kx (x : Reg) (b : Byte) : (s.setReg x b).kx = s.kx := rfl
@[simp] theorem State.setReg_cfg (x : Reg) (b : Byte) : (s.setReg x b).cfg = s.cfg := rfl
@[simp] theorem State.setReg_rngSupply (x : Reg) (b : Byte) : (s.setReg x b).rngSupply = s.rngSupply := rfl
@[simp] theorem State.setReg_rngDraws (x : Reg) (b : Byte) : (s.setReg x b).rngDraws = s.rngDraws := rfl
@[simp] theorem State.setReg_outcome (x : Reg) (b : Byte) : (s.setReg x b).outcome = s.outcome := rfl
@[simp] theorem State.setReg_byteAt (x : Reg) (b : Byte) (a : Nat) : (s.setReg x b).byteAt a = s.byteAt a := rfl

/-! ### setI -/

@[simp] theorem State.setI_mem (w : Word) : (s.setI w).mem = s.mem := rfl
@[simp] theorem State.setI_v (w : Word) : (s.setI w).v = s.v := rfl
@[simp] theorem State.setI_i (w : Word) : (s.setI w).i = w := rfl
@[simp] theorem State.setI_pc (w : Word) : (s.setI w).pc = s.pc := rfl
@[simp] theorem State.setI_stack (w : Word) : (s.setI w).stack = s.stack := rfl
@[simp] theorem State.setI_sp (w : Word) : (s.setI w).sp = s.sp := rfl
@[simp] theorem State.setI_dt (w : Word) : (s.setI w).dt = s.dt := rfl
@[simp] theorem State.setI_st (w : Word) : (s.setI w).st = s.st := rfl
@[simp] theorem State.setI_keypad (w : Word) : (s.setI w).keypad = s.keypad := rfl
@[simp] theorem State.setI_fb (w : Word) : (s.setI w).fb = s.fb := rfl
@[simp] theorem State.setI_redraw (w : Word) : (s.setI w).redraw = s.redraw := rfl
@[simp] theorem State.setI_await (w : Word) : (s.setI w).await = s.await := rfl
@[simp] theorem State.setI_kx (w : Word) : (s.setI w).kx = s.kx := rfl
@[simp] theorem State.setI_cfg (w : Word) : (s.setI w).cfg = s.cfg := rfl
@[simp] theorem State.setI_rngSupply (w : Word) : (s.setI w).rngSupply = s.rngSupply := rfl
@[simp] theorem State.setI_rngDraws (w : Word) : (s.setI w).rngDraws = s.rngDraws := rfl
@[simp] theorem State.setI_outcome (w : Word) : (s.setI w).outcome = s.outcome := rfl
@[simp] theorem State.setI_reg (w : Word) (y : Reg) : (s.setI w).reg y = s.reg y := rfl
@[simp] theorem State.setI_byteAt (w : Word) (a : Nat) : (s.setI w).byteAt a = s.byteAt a := rfl

/-! ### setPc -/

@[simp] theorem State.setPc_mem (w : Word) : (s.setPc w).mem = s.mem := rfl
@[simp] theorem State.setPc_v (w : Word) : (s.setPc w).v = s.v := rfl
@[simp] theorem State.setPc_i (w : Word) : (s.setPc w).i = s.i := rfl
@[simp] theorem State.setPc_pc (w : Word) : (s.setPc w).pc = w := rfl
@[simp] theorem State.setPc_stack (w : Word) : (s.setPc w).stack = s.stack := rfl
@[simp] theorem State.setPc_sp (w : Word) : (s.setPc w).sp = s.sp := rfl
@[simp] theorem State.setPc_dt (w : Word) : (s.setPc w).dt = s.dt := rfl
@[simp] theorem State.setPc_st (w : Word) : (s.setPc w).st = s.st := rfl
@[simp] theorem State.setPc_keypad (w : Word) : (s.setPc w).keypad = s.keypad := rfl
@[simp] theorem State.setPc_fb (w : Word) : (s.setPc w).fb = s.fb := rfl
@[simp] theorem State.setPc_redraw (w : Word) : (s.setPc w).redraw = s.redraw := rfl
@[simp] theorem State.setPc_await (w : Word) : (s.setPc w).await = s.await := rfl
@[simp] theorem State.setPc_kx (w : Word) : (s.setPc w).kx = s.kx := rfl
@[simp] theorem State.setPc_cfg (w : Word) : (s.setPc w).cfg = s.cfg := rfl
@[simp] theorem State.setPc_rngSupply (w : Word) : (s.setPc w).rngSupply = s.rngSupply := rfl
@[simp] theorem State.setPc_rngDraws (w : Word) : (s.setPc w).rngDraws = s.rngDraws := rfl
@[simp] theorem State.setPc_outcome (w : Word) : (s.setPc w).outcome = s.outcome := rfl
@[simp] theorem State.setPc_reg (w : Word) (y : Reg) : (s.setPc w).reg y = s.reg y := rfl
@[simp] theorem State.setPc_byteAt (w : Word) (a : Nat) : (s.setPc w).byteAt a = s.byteAt a := rfl

/-! ### advancePc -/

@[simp] theorem State.advancePc_mem : (s.advancePc).mem = s.mem := rfl
@[simp] theorem State.advancePc_v : (s.advancePc).v = s.v := rfl
@[simp] theorem State.advancePc_i : (s.advancePc).i = s.i := rfl
@[simp] theorem State.advancePc_pc : (s.advancePc).pc = s.pc + 2 := rfl
@[simp] theorem State.advancePc_stack : (s.advancePc).stack = s.stack := rfl
@[simp] theorem State.advancePc_sp : (s.advancePc).sp = s.sp := rfl
@[simp] theorem State.advancePc_dt : (s.advancePc).dt = s.dt := rfl
@[simp] theorem State.advancePc_st : (s.advancePc).st = s.st := rfl
@[simp] theorem State.advancePc_keypad : (s.advancePc).keypad = s.keypad := rfl
@[simp] theorem State.advancePc_fb : (s.advancePc).fb = s.fb := rfl
@[simp] theorem State.advancePc_redraw : (s.advancePc).redraw = s.redraw := rfl
@[simp] theorem State.advancePc_await : (s.advancePc).await = s.await := rfl
@[simp] theorem State.advancePc_kx : (s.advancePc).kx = s.kx := rfl
@[simp] theorem State.advancePc_cfg : (s.advancePc).cfg = s.cfg := rfl
@[simp] theorem State.advancePc_rngSupply : (s.advancePc).rngSupply = s.rngSupply := rfl
@[simp] theorem State.advancePc_rngDraws : (s.advancePc).rngDraws = s.rngDraws := rfl
@[simp] theorem State.advancePc_outcome : (s.advancePc).outcome = s.outcome := rfl
@[simp] theorem State.advancePc_reg (y : Reg) : (s.advancePc).reg y = s.reg y := rfl
@[simp] theorem State.advancePc_byteAt (a : Nat) : (s.advancePc).byteAt a = s.byteAt a := rfl

/-! ### setDt -/

@[simp] theorem State.setDt_mem (b : Byte) : (s.setDt b).mem = s.mem := rfl
@[simp] theorem State.setDt_v (b : Byte) : (s.setDt b).v = s.v := rfl
@[simp] theorem State.setDt_i (b : Byte) : (s.setDt b).i = s.i := rfl
@[simp] theorem State.setDt_pc (b : Byte) : (s.setDt b).pc = s.pc := rfl
@[simp] theorem State.setDt_stack (b : Byte) : (s.setDt b).stack = s.stack := rfl
@[simp] theorem State.setDt_sp (b : Byte) : (s.setDt b).sp = s.sp := rfl
@[simp] theorem State.setDt_dt (b : Byte) : (s.setDt b).dt = b := rfl
@[simp] theorem State.setDt_st (b : Byte) : (s.setDt b).st = s.st := rfl
@[simp] theorem State.setDt_keypad (b : Byte) : (s.setDt b).keypad = s.keypad := rfl
@[simp] theorem State.setDt_fb (b : Byte) : (s.setDt b).fb = s.fb := rfl
@[simp] theorem State.setDt_redraw (b : Byte) : (s.setDt b).redraw = s.redraw := rfl
@[simp] theorem State.setDt_await (b : Byte) : (s.setDt b).await = s.await := rfl
@[simp] theorem State.setDt_kx (b : Byte) : (s.setDt b).kx = s.kx := rfl
@[simp] theorem State.setDt_cfg (b : Byte) : (s.setDt b).cfg = s.cfg := rfl
@[simp] theorem State.setDt_rngSupply (b : Byte) : (s.setDt b).rngSupply = s.rngSupply := rfl
@[simp] theorem State.setDt_rngDraws (b : Byte) : (s.setDt b).rngDraws = s.rngDraws := rfl
@[simp] theorem State.setDt_outcome (b : Byte) : (s.setDt b).outcome = s.outcome := rfl
@[simp] theorem State.setDt_reg (b : Byte) (y : Reg) : (s.setDt b).reg y = s.reg y := rfl
@[simp] theorem State.setDt_byteAt (b : Byte) (a : Nat) : (s.setDt b).byteAt a = s.byteAt a := rfl

/-! ### setSt -/

@[simp] theorem State.setSt_mem (b : Byte) : (s.setSt b).mem = s.mem := rfl
@[simp] theorem State.setSt_v (b : Byte) : (s.setSt b).v = s.v := rfl
@[simp] theorem State.setSt_i (b : Byte) : (s.setSt b).i = s.i := rfl
@[simp] theorem State.setSt_pc (b : Byte) : (s.setSt b).pc = s.pc := rfl
@[simp] theorem State.setSt_stack (b : Byte) : (s.setSt b).stack = s.stack := rfl
@[simp] theorem State.setSt_sp (b : Byte) : (s.setSt b).sp = s.sp := rfl
@[simp] theorem State.setSt_dt (b : Byte) : (s.setSt b).dt = s.dt := rfl
@[simp] theorem State.setSt_st (b : Byte) : (s.setSt b).st = b := rfl
@[simp] theorem State.setSt_keypad (b : Byte) : (s.setSt b).keypad = s.keypad := rfl
@[simp] theorem State.setSt_fb (b : Byte) : (s.setSt b).fb = s.fb := rfl
@[simp] theorem State.setSt_redraw (b : Byte) : (s.setSt b).redraw = s.redraw := rfl
@[simp] theorem State.setSt_await (b : Byte) : (s.setSt b).await = s.await := rfl
@[simp] theorem State.setSt_kx (b : Byte) : (s.setSt b).kx = s.kx := rfl
@[simp] theorem State.setSt_cfg (b : Byte) : (s.setSt b).cfg = s.cfg := rfl
@[simp] theorem State.setSt_rngSupply (b : Byte) : (s.setSt b).rngSupply = s.rngSupply := rfl
@[simp] theorem State.setSt_rngDraws (b : Byte) : (s.setSt b).rngDraws = s.rngDraws := rfl
@[simp] theorem State.setSt_outcome (b : Byte) : (s.setSt b).outcome = s.outcome := rfl
@[simp] theorem State.setSt_reg (b : Byte) (y : Reg) : (s.setSt b).reg y = s.reg y := rfl
@[simp] theorem State.setSt_byteAt (b : Byte) (a : Nat) : (s.setSt b).byteAt a = s.byteAt a := rfl

/-! ### setFb -/

@[simp] theorem State.setFb_mem (fb : Framebuffer) : (s.setFb fb).mem = s.mem := rfl
@[simp] theorem State.setFb_v (fb : Framebuffer) : (s.setFb fb).v = s.v := rfl
@[simp] theorem State.setFb_i (fb : Framebuffer) : (s.setFb fb).i = s.i := rfl
@[simp] theorem State.setFb_pc (fb : Framebuffer) : (s.setFb fb).pc = s.pc := rfl
@[simp] theorem State.setFb_stack (fb : Framebuffer) : (s.setFb fb).stack = s.stack := rfl
@[simp] theorem State.setFb_sp (fb : Framebuffer) : (s.setFb fb).sp = s.sp := rfl
@[simp] theorem State.setFb_dt (fb : Framebuffer) : (s.setFb fb).dt = s.dt := rfl
@[simp] theorem State.setFb_st (fb : Framebuffer) : (s.setFb fb).st = s.st := rfl
@[simp] theorem State.setFb_keypad (fb : Framebuffer) : (s.setFb fb).keypad = s.keypad := rfl
@[simp] theorem State.setFb_fb (fb : Framebuffer) : (s.setFb fb).fb = fb := rfl
@[simp] theorem State.setFb_redraw (fb : Framebuffer) : (s.setFb fb).redraw = s.redraw := rfl
@[simp] theorem State.setFb_await (fb : Framebuffer) : (s.setFb fb).await = s.await := rfl
@[simp] theorem State.setFb_kx (fb : Framebuffer) : (s.setFb fb).kx = s.kx := rfl
@[simp] theorem State.setFb_cfg (fb : Framebuffer) : (s.setFb fb).cfg = s.cfg := rfl
@[simp] theorem State.setFb_rngSupply (fb : Framebuffer) : (s.setFb fb).rngSupply = s.rngSupply := rfl
@[simp] theorem State.setFb_rngDraws (fb : Framebuffer) : (s.setFb fb).rngDraws = s.rngDraws := rfl
@[simp] theorem State.setFb_outcome (fb : Framebuffer) : (s.setFb fb).outcome = s.outcome := rfl
@[simp] theorem State.setFb_reg (fb : Framebuffer) (y : Reg) : (s.setFb fb).reg y = s.reg y := rfl
@[simp] theorem State.setFb_byteAt (fb : Framebuffer) (a : Nat) : (s.setFb fb).byteAt a = s.byteAt a := rfl

/-! ### setRedraw -/

@[simp] theorem State.setRedraw_mem (b : Bool) : (s.setRedraw b).mem = s.mem := rfl
@[simp] theorem State.setRedraw_v (b : Bool) : (s.setRedraw b).v = s.v := rfl
@[simp] theorem State.setRedraw_i (b : Bool) : (s.setRedraw b).i = s.i := rfl
@[simp] theorem State.setRedraw_pc (b : Bool) : (s.setRedraw b).pc = s.pc := rfl
@[simp] theorem State.setRedraw_stack (b : Bool) : (s.setRedraw b).stack = s.stack := rfl
@[simp] theorem State.setRedraw_sp (b : Bool) : (s.setRedraw b).sp = s.sp := rfl
@[simp] theorem State.setRedraw_dt (b : Bool) : (s.setRedraw b).dt = s.dt := rfl
@[simp] theorem State.setRedraw_st (b : Bool) : (s.setRedraw b).st = s.st := rfl
@[simp] theorem State.setRedraw_keypad (b : Bool) : (s.setRedraw b).keypad = s.keypad := rfl
@[simp] theorem State.setRedraw_fb (b : Bool) : (s.setRedraw b).fb = s.fb := rfl
@[simp] theorem State.setRedraw_redraw (b : Bool) : (s.setRedraw b).redraw = b := rfl
@[simp] theorem State.setRedraw_await (b : Bool) : (s.setRedraw b).await = s.await := rfl
@[simp] theorem State.setRedraw_kx (b : Bool) : (s.setRedraw b).kx = s.kx := rfl
@[simp] theorem State.setRedraw_cfg (b : Bool) : (s.setRedraw b).cfg = s.cfg := rfl
@[simp] theorem State.setRedraw_rngSupply (b : Bool) : (s.setRedraw b).rngSupply = s.rngSupply := rfl
@[simp] theorem State.setRedraw_rngDraws (b : Bool) : (s.setRedraw b).rngDraws = s.rngDraws := rfl
@[simp] theorem State.setRedraw_outcome (b : Bool) : (s.setRedraw b).outcome = s.outcome := rfl
@[simp] theorem State.setRedraw_reg (b : Bool) (y : Reg) : (s.setRedraw b).reg y = s.reg y := rfl
@[simp] theorem State.setRedraw_byteAt (b : Bool) (a : Nat) : (s.setRedraw b).byteAt a = s.byteAt a := rfl

/-! ### startAwait -/

@[simp] theorem State.startAwait_mem (x : Reg) : (s.startAwait x).mem = s.mem := rfl
@[simp] theorem State.startAwait_v (x : Reg) : (s.startAwait x).v = s.v := rfl
@[simp] theorem State.startAwait_i (x : Reg) : (s.startAwait x).i = s.i := rfl
@[simp] theorem State.startAwait_pc (x : Reg) : (s.startAwait x).pc = s.pc := rfl
@[simp] theorem State.startAwait_stack (x : Reg) : (s.startAwait x).stack = s.stack := rfl
@[simp] theorem State.startAwait_sp (x : Reg) : (s.startAwait x).sp = s.sp := rfl
@[simp] theorem State.startAwait_dt (x : Reg) : (s.startAwait x).dt = s.dt := rfl
@[simp] theorem State.startAwait_st (x : Reg) : (s.startAwait x).st = s.st := rfl
@[simp] theorem State.startAwait_keypad (x : Reg) : (s.startAwait x).keypad = s.keypad := rfl
@[simp] theorem State.startAwait_fb (x : Reg) : (s.startAwait x).fb = s.fb := rfl
@[simp] theorem State.startAwait_redraw (x : Reg) : (s.startAwait x).redraw = s.redraw := rfl
@[simp] theorem State.startAwait_await (x : Reg) : (s.startAwait x).await = true := rfl
@[simp] theorem State.startAwait_kx (x : Reg) : (s.startAwait x).kx = x := rfl
@[simp] theorem State.startAwait_cfg (x : Reg) : (s.startAwait x).cfg = s.cfg := rfl
@[simp] theorem State.startAwait_rngSupply (x : Reg) : (s.startAwait x).rngSupply = s.rngSupply := rfl
@[simp] theorem State.startAwait_rngDraws (x : Reg) : (s.startAwait x).rngDraws = s.rngDraws := rfl
@[simp] theorem State.startAwait_outcome (x : Reg) : (s.startAwait x).outcome = s.outcome := rfl
@[simp] theorem State.startAwait_reg (x : Reg) (y : Reg) : (s.startAwait x).reg y = s.reg y := rfl
@[simp] theorem State.startAwait_byteAt (x : Reg) (a : Nat) : (s.startAwait x).byteAt a = s.byteAt a := rfl

/-! ### stopAwait -/

@[simp] theorem State.stopAwait_mem : (s.stopAwait).mem = s.mem := rfl
@[simp] theorem State.stopAwait_v : (s.stopAwait).v = s.v := rfl
@[simp] theorem State.stopAwait_i : (s.stopAwait).i = s.i := rfl
@[simp] theorem State.stopAwait_pc : (s.stopAwait).pc = s.pc := rfl
@[simp] theorem State.stopAwait_stack : (s.stopAwait).stack = s.stack := rfl
@[simp] theorem State.stopAwait_sp : (s.stopAwait).sp = s.sp := rfl
@[simp] theorem State.stopAwait_dt : (s.stopAwait).dt = s.dt := rfl
@[simp] theorem State.stopAwait_st : (s.stopAwait).st = s.st := rfl
@[simp] theorem State.stopAwait_keypad : (s.stopAwait).keypad = s.keypad := rfl
@[simp] theorem State.stopAwait_fb : (s.stopAwait).fb = s.fb := rfl
@[simp] theorem State.stopAwait_redraw : (s.stopAwait).redraw = s.redraw := rfl
@[simp] theorem State.stopAwait_await : (s.stopAwait).await = false := rfl
@[simp] theorem State.stopAwait_kx : (s.stopAwait).kx = s.kx := rfl
@[simp] theorem State.stopAwait_cfg : (s.stopAwait).cfg = s.cfg := rfl
@[simp] theorem State.stopAwait_rngSupply : (s.stopAwait).rngSupply = s.rngSupply := rfl
@[simp] theorem State.stopAwait_rngDraws : (s.stopAwait).rngDraws = s.rngDraws := rfl
@[simp] theorem State.stopAwait_outcome : (s.stopAwait).outcome = s.outcome := rfl
@[simp] theorem State.stopAwait_reg (y : Reg) : (s.stopAwait).reg y = s.reg y := rfl
@[simp] theorem State.stopAwait_byteAt (a : Nat) : (s.stopAwait).byteAt a = s.byteAt a := rfl

/-! ### rngAdvance -/

@[simp] theorem State.rngAdvance_mem : (s.rngAdvance).mem = s.mem := rfl
@[simp] theorem State.rngAdvance_v : (s.rngAdvance).v = s.v := rfl
@[simp] theorem State.rngAdvance_i : (s.rngAdvance).i = s.i := rfl
@[simp] theorem State.rngAdvance_pc : (s.rngAdvance).pc = s.pc := rfl
@[simp] theorem State.rngAdvance_stack : (s.rngAdvance).stack = s.stack := rfl
@[simp] theorem State.rngAdvance_sp : (s.rngAdvance).sp = s.sp := rfl
@[simp] theorem State.rngAdvance_dt : (s.rngAdvance).dt = s.dt := rfl
@[simp] theorem State.rngAdvance_st : (s.rngAdvance).st = s.st := rfl
@[simp] theorem State.rngAdvance_keypad : (s.rngAdvance).keypad = s.keypad := rfl
@[simp] theorem State.rngAdvance_fb : (s.rngAdvance).fb = s.fb := rfl
@[simp] theorem State.rngAdvance_redraw : (s.rngAdvance).redraw = s.redraw := rfl
@[simp] theorem State.rngAdvance_await : (s.rngAdvance).await = s.await := rfl
@[simp] theorem State.rngAdvance_kx : (s.rngAdvance).kx = s.kx := rfl
@[simp] theorem State.rngAdvance_cfg : (s.rngAdvance).cfg = s.cfg := rfl
@[simp] theorem State.rngAdvance_rngSupply : (s.rngAdvance).rngSupply = s.rngSupply.tail := rfl
@[simp] theorem State.rngAdvance_rngDraws : (s.rngAdvance).rngDraws = s.rngDraws + 1 := rfl
@[simp] theorem State.rngAdvance_outcome : (s.rngAdvance).outcome = s.outcome := rfl
@[simp] theorem State.rngAdvance_reg (y : Reg) : (s.rngAdvance).reg y = s.reg y := rfl
@[simp] theorem State.rngAdvance_byteAt (a : Nat) : (s.rngAdvance).byteAt a = s.byteAt a := rfl

/-! ### setOutcome -/

@[simp] theorem State.setOutcome_mem (o : StepOutcome) : (s.setOutcome o).mem = s.mem := rfl
@[simp] theorem State.setOutcome_v (o : StepOutcome) : (s.setOutcome o).v = s.v := rfl
@[simp] theorem State.setOutcome_i (o : StepOutcome) : (s.setOutcome o).i = s.i := rfl
@[simp] theorem State.setOutcome_pc (o : StepOutcome) : (s.setOutcome o).pc = s.pc := rfl
@[simp] theorem State.setOutcome_stack (o : StepOutcome) : (s.setOutcome o).stack = s.stack := rfl
@[simp] theorem State.setOutcome_sp (o : StepOutcome) : (s.setOutcome o).sp = s.sp := rfl
@[simp] theorem State.setOutcome_dt (o : StepOutcome) : (s.setOutcome o).dt = s.dt := rfl
@[simp] theorem State.setOutcome_st (o : StepOutcome) : (s.setOutcome o).st = s.st := rfl
@[simp] theorem State.setOutcome_keypad (o : StepOutcome) : (s.setOutcome o).keypad = s.keypad := rfl
@[simp] theorem State.setOutcome_fb (o : StepOutcome) : (s.setOutcome o).fb = s.fb := rfl
@[simp] theorem State.setOutcome_redraw (o : StepOutcome) : (s.setOutcome o).redraw = s.redraw := rfl
@[simp] theorem State.setOutcome_await (o : StepOutcome) : (s.setOutcome o).await = s.await := rfl
@[simp] theorem State.setOutcome_kx (o : StepOutcome) : (s.setOutcome o).kx = s.kx := rfl
@[simp] theorem State.setOutcome_cfg (o : StepOutcome) : (s.setOutcome o).cfg = s.cfg := rfl
@[simp] theorem State.setOutcome_rngSupply (o : StepOutcome) : (s.setOutcome o).rngSupply = s.rngSupply := rfl
@[simp] theorem State.setOutcome_rngDraws (o : StepOutcome) : (s.setOutcome o).rngDraws = s.rngDraws := rfl
@[simp] theorem State.setOutcome_outcome (o : StepOutcome) : (s.setOutcome o).outcome = o := rfl
@[simp] theorem State.setOutcome_reg (o : StepOutcome) (y : Reg) : (s.setOutcome o).reg y = s.reg y := rfl
@[simp] theorem State.setOutcome_byteAt (o : StepOutcome) (a : Nat) : (s.setOutcome o).byteAt a = s.byteAt a := rfl

/-! ### setFlag -/

@[simp] theorem State.setFlag_mem (b : Bool) : (s.setFlag b).mem = s.mem := rfl
@[simp] theorem State.setFlag_v (b : Bool) : (s.setFlag b).v = s.v.set vF (flagByte b) := rfl
@[simp] theorem State.setFlag_i (b : Bool) : (s.setFlag b).i = s.i := rfl
@[simp] theorem State.setFlag_pc (b : Bool) : (s.setFlag b).pc = s.pc := rfl
@[simp] theorem State.setFlag_stack (b : Bool) : (s.setFlag b).stack = s.stack := rfl
@[simp] theorem State.setFlag_sp (b : Bool) : (s.setFlag b).sp = s.sp := rfl
@[simp] theorem State.setFlag_dt (b : Bool) : (s.setFlag b).dt = s.dt := rfl
@[simp] theorem State.setFlag_st (b : Bool) : (s.setFlag b).st = s.st := rfl
@[simp] theorem State.setFlag_keypad (b : Bool) : (s.setFlag b).keypad = s.keypad := rfl
@[simp] theorem State.setFlag_fb (b : Bool) : (s.setFlag b).fb = s.fb := rfl
@[simp] theorem State.setFlag_redraw (b : Bool) : (s.setFlag b).redraw = s.redraw := rfl
@[simp] theorem State.setFlag_await (b : Bool) : (s.setFlag b).await = s.await := rfl
@[simp] theorem State.setFlag_kx (b : Bool) : (s.setFlag b).kx = s.kx := rfl
@[simp] theorem State.setFlag_cfg (b : Bool) : (s.setFlag b).cfg = s.cfg := rfl
@[simp] theorem State.setFlag_rngSupply (b : Bool) : (s.setFlag b).rngSupply = s.rngSupply := rfl
@[simp] theorem State.setFlag_rngDraws (b : Bool) : (s.setFlag b).rngDraws = s.rngDraws := rfl
@[simp] theorem State.setFlag_outcome (b : Bool) : (s.setFlag b).outcome = s.outcome := rfl
@[simp] theorem State.setFlag_byteAt (b : Bool) (a : Nat) : (s.setFlag b).byteAt a = s.byteAt a := rfl

/-! ### setResultFlag -/

@[simp] theorem State.setResultFlag_mem (x : Reg) (r : Byte) (b : Bool) : (s.setResultFlag x r b).mem = s.mem := rfl
@[simp] theorem State.setResultFlag_v (x : Reg) (r : Byte) (b : Bool) : (s.setResultFlag x r b).v = (s.v.set x r).set vF (flagByte b) := rfl
@[simp] theorem State.setResultFlag_i (x : Reg) (r : Byte) (b : Bool) : (s.setResultFlag x r b).i = s.i := rfl
@[simp] theorem State.setResultFlag_pc (x : Reg) (r : Byte) (b : Bool) : (s.setResultFlag x r b).pc = s.pc := rfl
@[simp] theorem State.setResultFlag_stack (x : Reg) (r : Byte) (b : Bool) : (s.setResultFlag x r b).stack = s.stack := rfl
@[simp] theorem State.setResultFlag_sp (x : Reg) (r : Byte) (b : Bool) : (s.setResultFlag x r b).sp = s.sp := rfl
@[simp] theorem State.setResultFlag_dt (x : Reg) (r : Byte) (b : Bool) : (s.setResultFlag x r b).dt = s.dt := rfl
@[simp] theorem State.setResultFlag_st (x : Reg) (r : Byte) (b : Bool) : (s.setResultFlag x r b).st = s.st := rfl
@[simp] theorem State.setResultFlag_keypad (x : Reg) (r : Byte) (b : Bool) : (s.setResultFlag x r b).keypad = s.keypad := rfl
@[simp] theorem State.setResultFlag_fb (x : Reg) (r : Byte) (b : Bool) : (s.setResultFlag x r b).fb = s.fb := rfl
@[simp] theorem State.setResultFlag_redraw (x : Reg) (r : Byte) (b : Bool) : (s.setResultFlag x r b).redraw = s.redraw := rfl
@[simp] theorem State.setResultFlag_await (x : Reg) (r : Byte) (b : Bool) : (s.setResultFlag x r b).await = s.await := rfl
@[simp] theorem State.setResultFlag_kx (x : Reg) (r : Byte) (b : Bool) : (s.setResultFlag x r b).kx = s.kx := rfl
@[simp] theorem State.setResultFlag_cfg (x : Reg) (r : Byte) (b : Bool) : (s.setResultFlag x r b).cfg = s.cfg := rfl
@[simp] theorem State.setResultFlag_rngSupply (x : Reg) (r : Byte) (b : Bool) : (s.setResultFlag x r b).rngSupply = s.rngSupply := rfl
@[simp] theorem State.setResultFlag_rngDraws (x : Reg) (r : Byte) (b : Bool) : (s.setResultFlag x r b).rngDraws = s.rngDraws := rfl
@[simp] theorem State.setResultFlag_outcome (x : Reg) (r : Byte) (b : Bool) : (s.setResultFlag x r b).outcome = s.outcome := rfl
@[simp] theorem State.setResultFlag_byteAt (x : Reg) (r : Byte) (b : Bool) (a : Nat) : (s.setResultFlag x r b).byteAt a = s.byteAt a := rfl

/-! ### skipIf -/

@[simp] theorem State.skipIf_mem (c : Bool) : (s.skipIf c).mem = s.mem := by cases c <;> rfl
@[simp] theorem State.skipIf_v (c : Bool) : (s.skipIf c).v = s.v := by cases c <;> rfl
@[simp] theorem State.skipIf_i (c : Bool) : (s.skipIf c).i = s.i := by cases c <;> rfl
@[simp] theorem State.skipIf_pc (c : Bool) : (s.skipIf c).pc = if c then s.pc + 2 else s.pc := by
  cases c <;> rfl
@[simp] theorem State.skipIf_stack (c : Bool) : (s.skipIf c).stack = s.stack := by cases c <;> rfl
@[simp] theorem State.skipIf_sp (c : Bool) : (s.skipIf c).sp = s.sp := by cases c <;> rfl
@[simp] theorem State.skipIf_dt (c : Bool) : (s.skipIf c).dt = s.dt := by cases c <;> rfl
@[simp] theorem State.skipIf_st (c : Bool) : (s.skipIf c).st = s.st := by cases c <;> rfl
@[simp] theorem State.skipIf_keypad (c : Bool) : (s.skipIf c).keypad = s.keypad := by cases c <;> rfl
@[simp] theorem State.skipIf_fb (c : Bool) : (s.skipIf c).fb = s.fb := by cases c <;> rfl
@[simp] theorem State.skipIf_redraw (c : Bool) : (s.skipIf c).redraw = s.redraw := by cases c <;> rfl
@[simp] theorem State.skipIf_await (c : Bool) : (s.skipIf c).await = s.await := by cases c <;> rfl
@[simp] theorem State.skipIf_kx (c : Bool) : (s.skipIf c).kx = s.kx := by cases c <;> rfl
@[simp] theorem State.skipIf_cfg (c : Bool) : (s.skipIf c).cfg = s.cfg := by cases c <;> rfl
@[simp] theorem State.skipIf_rngSupply (c : Bool) : (s.skipIf c).rngSupply = s.rngSupply := by cases c <;> rfl
@[simp] theorem State.skipIf_rngDraws (c : Bool) : (s.skipIf c).rngDraws = s.rngDraws := by cases c <;> rfl
@[simp] theorem State.skipIf_outcome (c : Bool) : (s.skipIf c).outcome = s.outcome := by cases c <;> rfl
@[simp] theorem State.skipIf_reg (c : Bool) (y : Reg) : (s.skipIf c).reg y = s.reg y := by cases c <;> rfl
@[simp] theorem State.skipIf_byteAt (c : Bool) (a : Nat) : (s.skipIf c).byteAt a = s.byteAt a := by cases c <;> rfl

/-! ### Reading back a register -/

theorem State.setReg_reg (x y : Reg) (b : Byte) : (s.setReg x b).reg y = if y = x then b else s.reg y := by
  simp only [State.reg, State.setReg, Fin.getElem_fin, Vector.getElem_set, Fin.ext_iff, eq_comm]

@[simp] theorem State.setReg_reg_self (x : Reg) (b : Byte) : (s.setReg x b).reg x = b := by
  simp [State.setReg_reg]

theorem State.setReg_reg_of_ne (x y : Reg) (b : Byte) (h : y ≠ x) : (s.setReg x b).reg y = s.reg y := by
  simp [State.setReg_reg, h]

theorem State.setFlag_reg (y : Reg) (b : Bool) : (s.setFlag b).reg y = if y = vF then flagByte b else s.reg y :=
  s.setReg_reg vF y (flagByte b)

theorem State.setResultFlag_reg (x y : Reg) (r : Byte) (b : Bool) :
    (s.setResultFlag x r b).reg y = if y = vF then flagByte b else if y = x then r else s.reg y := by
  simp only [State.setResultFlag, State.setFlag_reg, State.setReg_reg]


end Sys2Proof.Machine
end

