-- ==== Sys2Proof/Laws/Display.lean ====
section
/-! SUPPORT. What the XOR-blit does, pixel by pixel (40_display.md R101): every pixel ends as its old value XOR the
sprite's bit there, and a collision is a lit pixel under a 1 bit, wherever the loop meets it. -/

namespace Sys2Proof.Machine

theorem Framebuffer.pixel_eq_false (fb : Framebuffer) (r c : Nat) (h : ¬(r < 32 ∧ c < 64)) : fb.pixel r c = false := by
  simp only [Framebuffer.pixel, dif_neg h]

/-- Two framebuffers with the same pixels are equal. -/
theorem Framebuffer.ext_pixel {a b : Framebuffer} (h : ∀ r < 32, ∀ c < 64, a.pixel r c = b.pixel r c) : a = b := by
  ext r hr c hc
  simpa [Framebuffer.pixel, hr, hc] using h r hr c hc

@[simp] theorem Framebuffer.pixel_clear (r c : Nat) : Framebuffer.clear.pixel r c = false := by
  simp [Framebuffer.pixel, Framebuffer.clear]

/-- A toggle inverts the pixel it names, if that is on the screen, and no other. -/
theorem Framebuffer.pixel_toggle (fb : Framebuffer) (r c r' c' : Nat) :
    (fb.toggle r c).pixel r' c' = (fb.pixel r' c' ^^ decide (r' = r ∧ c' = c ∧ r < 32 ∧ c < 64)) := by
  unfold Framebuffer.toggle
  split
  · rename_i h
    unfold Framebuffer.pixel
    split
    · by_cases hr : r = r'
      · subst hr
        by_cases hc : c = c'
        · subst hc; simp [h]
        · simp [Ne.symm hc, hc]
      · simp [hr, Ne.symm hr]
    · rename_i h'
      have : ¬(r' = r ∧ c' = c ∧ r < 32 ∧ c < 64) := by rintro ⟨rfl, rfl, h1⟩; exact h' h1
      simp [this]
  · rename_i h
    have : ¬(r' = r ∧ c' = c ∧ r < 32 ∧ c < 64) := fun ⟨_, _, h1⟩ => h h1
    simp [this]

/-- One row of the loop, over any list of different columns. -/
theorem Blit.pixels_foldl (row x0 : Nat) (bit : Nat → Bool) (ks : List Nat) (hks : ks.Nodup) (p : Blit) :
    (∀ r c, (ks.foldl (fun q k => q.pixel row (x0 + k) (bit k)) p).fb.pixel r c =
      (p.fb.pixel r c ^^ decide (r = row ∧ r < 32 ∧ c < 64 ∧ ∃ k ∈ ks, c = x0 + k ∧ bit k = true))) ∧
    ((ks.foldl (fun q k => q.pixel row (x0 + k) (bit k)) p).collision = true ↔
      p.collision = true ∨ ∃ k ∈ ks, bit k = true ∧ p.fb.pixel row (x0 + k) = true) := by
  induction ks generalizing p with
  | nil => simp
  | cons k ks ih =>
    obtain ⟨hk, hnd⟩ := List.nodup_cons.1 hks
    obtain ⟨ihp, ihc⟩ := ih hnd (p.pixel row (x0 + k) (bit k))
    rw [List.foldl_cons]
    cases hb : bit k with
    | false =>
      simp only [hb, Blit.pixel, Bool.false_eq_true, if_false] at ihp ihc ⊢
      refine ⟨fun r c => ?_, ?_⟩
      · rw [ihp]; simp [hb]
      · rw [ihc]; simp [hb]
    | true =>
      simp only [hb, Blit.pixel, if_true] at ihp ihc ⊢
      have old : ∀ j ∈ ks, (p.fb.toggle row (x0 + k)).pixel row (x0 + j) = p.fb.pixel row (x0 + j) := by
        intro j hj
        have : j ≠ k := fun h => hk (h ▸ hj)
        simp [Framebuffer.pixel_toggle, this]
      refine ⟨fun r c => ?_, ?_⟩
      · rw [ihp, Framebuffer.pixel_toggle]
        by_cases hc : c = x0 + k
        · subst hc
          have hn : ¬∃ j ∈ ks, k = j ∧ bit j = true := by rintro ⟨j, hj, rfl, _⟩; exact hk hj
          by_cases hr : r = row
          · subst hr
            by_cases hg : r < 32 ∧ x0 + k < 64 <;> simp [hb, hn, hg]
          · simp [hr]
        · simp [hc]
      · rw [ihc]
        simp only [List.mem_cons, exists_eq_or_imp, hb, true_and, Bool.or_eq_true]
        constructor
        · rintro ((h | h) | ⟨j, hj, hbj, hp⟩)
          · exact .inl h
          · exact .inr (.inl h)
          · exact .inr (.inr ⟨j, hj, hbj, by rwa [old j hj] at hp⟩)
        · rintro (h | h | ⟨j, hj, hbj, hp⟩)
          · exact .inl (.inl h)
          · exact .inl (.inr h)
          · exact .inr ⟨j, hj, hbj, by rwa [old j hj]⟩

theorem Blit.row_pixel (p : Blit) (row x0 : Nat) (b : Byte) (r c : Nat) (hr : r < 32) (hc : c < 64) :
    (p.row row x0 b).fb.pixel r c =
      (p.fb.pixel r c ^^ (decide (r = row ∧ x0 ≤ c ∧ c < x0 + 8) && b.getLsbD (7 - (c - x0)))) := by
  rw [Blit.row, (Blit.pixels_foldl row x0 (fun k => b.getLsbD (7 - k)) _ List.nodup_range p).1]
  congr 1
  rw [Bool.eq_iff_iff]
  simp only [decide_eq_true_eq, List.mem_range, Bool.and_eq_true]
  constructor
  · rintro ⟨h1, -, -, k, hk, rfl, hb⟩
    exact ⟨⟨h1, by omega, by omega⟩, by simpa using hb⟩
  · rintro ⟨⟨h1, h2, h3⟩, hb⟩
    exact ⟨h1, hr, hc, c - x0, by omega, by omega, hb⟩

theorem Blit.row_collision (p : Blit) (row x0 : Nat) (b : Byte) :
    (p.row row x0 b).collision = true ↔
      p.collision = true ∨ ∃ c, x0 ≤ c ∧ c < x0 + 8 ∧ b.getLsbD (7 - (c - x0)) = true ∧ p.fb.pixel row c = true := by
  rw [Blit.row, (Blit.pixels_foldl row x0 (fun k => b.getLsbD (7 - k)) _ List.nodup_range p).2]
  refine or_congr Iff.rfl ⟨?_, ?_⟩
  · rintro ⟨k, hk, hb, hp⟩
    exact ⟨x0 + k, by omega, by have := List.mem_range.1 hk; omega, by simpa using hb, hp⟩
  · rintro ⟨c, h1, h2, hb, hp⟩
    exact ⟨c - x0, List.mem_range.2 (by omega), hb, by rwa [show x0 + (c - x0) = c by omega]⟩

@[simp] theorem spriteBit_nil (y0 x0 r c : Nat) : spriteBit [] y0 x0 r c = false := by
  have : ¬(y0 ≤ r ∧ r < y0 + 0 ∧ x0 ≤ c ∧ c < x0 + 8) := by omega
  simp only [spriteBit, List.length_nil, this, decide_false, Bool.false_and]

/-- A sprite is its first row and the rest one row below. -/
theorem spriteBit_cons (b : Byte) (bs : List Byte) (y0 x0 r c : Nat) :
    spriteBit (b :: bs) y0 x0 r c =
      ((decide (r = y0 ∧ x0 ≤ c ∧ c < x0 + 8) && b.getLsbD (7 - (c - x0))) ^^ spriteBit bs (y0 + 1) x0 r c) := by
  by_cases hr : r = y0
  · subst hr
    have : ¬(r + 1 ≤ r ∧ r < r + 1 + bs.length ∧ x0 ≤ c ∧ c < x0 + 8) := by omega
    simp [spriteBit]
  · by_cases hlt : y0 < r
    · have h1 : r - y0 = (r - (y0 + 1)) + 1 := by omega
      have h2 : (y0 ≤ r ∧ r < y0 + (bs.length + 1) ∧ x0 ≤ c ∧ c < x0 + 8) ↔
          (y0 + 1 ≤ r ∧ r < y0 + 1 + bs.length ∧ x0 ≤ c ∧ c < x0 + 8) := by omega
      simp only [spriteBit, List.length_cons, h2, hr, false_and, decide_false, Bool.false_and, Bool.false_xor, h1,
        List.getD_cons_succ]
    · have h1 : ¬ y0 ≤ r := by omega
      have h2 : ¬ y0 + 1 ≤ r := by omega
      simp [spriteBit, h1, h2, hr]

/-- Every pixel of the screen after a draw is its old value XOR the sprite's bit (R101). -/
theorem Blit.rows_pixel (p : Blit) (y0 x0 : Nat) (sprite : List Byte) (r c : Nat) (hr : r < 32) (hc : c < 64) :
    (p.rows y0 x0 sprite).fb.pixel r c = (p.fb.pixel r c ^^ spriteBit sprite y0 x0 r c) := by
  induction sprite generalizing p y0 with
  | nil => simp [Blit.rows]
  | cons b bs ih => rw [Blit.rows, ih, Blit.row_pixel _ _ _ _ _ _ hr hc, spriteBit_cons, Bool.xor_assoc]

/-- A draw collides exactly where a 1 bit of the sprite falls on a lit pixel of the screen (R101). -/
theorem Blit.rows_collision (p : Blit) (y0 x0 : Nat) (sprite : List Byte) :
    (p.rows y0 x0 sprite).collision = true ↔
      p.collision = true ∨
        ∃ r c, r < 32 ∧ c < 64 ∧ spriteBit sprite y0 x0 r c = true ∧ p.fb.pixel r c = true := by
  induction sprite generalizing p y0 with
  | nil => simp [Blit.rows]
  | cons b bs ih =>
    have on_screen : ∀ r c, p.fb.pixel r c = true → r < 32 ∧ c < 64 := by
      intro r c h
      by_contra hg
      rw [Framebuffer.pixel_eq_false _ _ _ hg] at h
      cases h
    rw [Blit.rows, ih, Blit.row_collision, or_assoc]
    refine or_congr Iff.rfl ⟨?_, ?_⟩
    · rintro (⟨c, h1, h2, hb, hp⟩ | ⟨r, c, hr, hc, hs, hp⟩)
      · obtain ⟨hr, hc⟩ := on_screen _ _ hp
        refine ⟨y0, c, hr, hc, ?_, hp⟩
        have : ¬ y0 + 1 ≤ y0 := by omega
        rw [spriteBit_cons]
        simp [spriteBit, h1, h2, hb]
      · have hne : r ≠ y0 := by
          rintro rfl
          simp [spriteBit] at hs
        rw [Blit.row_pixel _ _ _ _ _ _ hr hc] at hp
        refine ⟨r, c, hr, hc, ?_, ?_⟩
        · rw [spriteBit_cons]; simp [hne, hs]
        · simpa [hne] using hp
    · rintro ⟨r, c, hr, hc, hs, hp⟩
      rw [spriteBit_cons] at hs
      by_cases hry : r = y0
      · subst hry
        left
        have : ¬ r + 1 ≤ r := by omega
        simp only [spriteBit, this, false_and, decide_false, Bool.false_and, Bool.xor_false, Bool.and_eq_true,
          decide_eq_true_eq, true_and] at hs
        exact ⟨c, hs.1.1, hs.1.2, hs.2, hp⟩
      · right
        refine ⟨r, c, hr, hc, by simpa [hry] using hs, ?_⟩
        rw [Blit.row_pixel _ _ _ _ _ _ hr hc]
        simp [hry, hp]

end Sys2Proof.Machine
end

