-- ==== Sys2Proof/Laws/Memory.lean ====
section
/-! SUPPORT. The laws of memory: a read after a write, what a write leaves alone, and that every memory operation keeps
the canonical form (20_memory.md R53, R58, R66). -/

namespace Sys2Proof.Machine

open Sys2Proof.Config

/-! ## The list -/

@[simp] theorem Memory.lookup_nil (a : Nat) : Memory.lookup [] a = none := rfl

@[simp] theorem Memory.lookup_cons (b : Nat) (w : Byte) (m : Memory) (a : Nat) :
    Memory.lookup ((b, w) :: m) a = if a = b then some w else Memory.lookup m a := rfl

theorem Memory.lookup_eq_none_of_lt (m : Memory) (a : Nat) (h : ∀ p ∈ m, a < p.1) : Memory.lookup m a = none := by
  induction m with
  | nil => rfl
  | cons p m ih =>
    obtain ⟨b, w⟩ := p
    have hb : a < b := h (b, w) (by simp)
    rw [Memory.lookup_cons, if_neg (by omega), ih fun p hp => h p (List.mem_cons_of_mem _ hp)]

theorem Memory.wf_tail {f : Font} {p : Host.Cell} {m : Memory} (h : Memory.wf f (p :: m)) : Memory.wf f m :=
  ⟨(List.pairwise_cons.1 h.1).2, fun q hq => h.2 q (List.mem_cons_of_mem _ hq)⟩

theorem Memory.wf_head_lt {f : Font} {p : Host.Cell} {m : Memory} (h : Memory.wf f (p :: m)) :
    ∀ q ∈ m, p.1 < q.1 :=
  (List.pairwise_cons.1 h.1).1

/-- A read after a write to the same cell gives the value written. -/
theorem Memory.read_write_self (f : Font) (m : Memory) (a : Nat) (v : Byte) (h : Memory.wf f m) :
    Memory.read f (Memory.write f m a v) a = v := by
  induction m with
  | nil => by_cases hv : v = Memory.unlisted f a <;> simp [Memory.write, Memory.read, hv]
  | cons p m ih =>
    obtain ⟨b, w⟩ := p
    have hlt := Memory.wf_head_lt h
    have tail := ih (Memory.wf_tail h)
    by_cases hab : a < b
    · have none_tail : Memory.lookup m a = none :=
        Memory.lookup_eq_none_of_lt m a fun q hq => lt_trans hab (hlt q hq)
      by_cases hv : v = Memory.unlisted f a <;>
        simp [Memory.write, Memory.read, hab, hv, none_tail, show a ≠ b by omega]
    · by_cases he : a = b
      · subst he
        have none_tail : Memory.lookup m a = none := Memory.lookup_eq_none_of_lt m a hlt
        by_cases hv : v = Memory.unlisted f a <;> simp [Memory.write, Memory.read, hv, none_tail]
      · simpa [Memory.write, Memory.read, hab, he] using tail

/-- A write leaves every other cell alone. -/
theorem Memory.read_write_of_ne (f : Font) (m : Memory) (a c : Nat) (v : Byte) (hc : c ≠ a) :
    Memory.read f (Memory.write f m a v) c = Memory.read f m c := by
  induction m with
  | nil => by_cases hv : v = Memory.unlisted f a <;> simp [Memory.write, Memory.read, hv, hc]
  | cons p m ih =>
    obtain ⟨b, w⟩ := p
    by_cases hab : a < b
    · by_cases hv : v = Memory.unlisted f a <;> simp [Memory.write, Memory.read, hab, hv, hc]
    · by_cases he : a = b
      · subst he
        by_cases hv : v = Memory.unlisted f a <;> simp [Memory.write, Memory.read, hv, hc]
      · by_cases hcb : c = b
        · simp [Memory.write, Memory.read, hab, he, hcb]
        · simpa [Memory.write, Memory.read, hab, he, hcb] using ih

/-- Every entry after a write is an old entry or the one written. -/
theorem Memory.mem_write {f : Font} {m : Memory} {a : Nat} {v : Byte} {q : Host.Cell}
    (hq : q ∈ Memory.write f m a v) : q ∈ m ∨ (q = (a, v) ∧ v ≠ Memory.unlisted f a) := by
  induction m with
  | nil =>
    by_cases hv : v = Memory.unlisted f a
    · simp [Memory.write, hv] at hq
    · right; simpa [Memory.write, hv] using hq
  | cons p m ih =>
    obtain ⟨b, w⟩ := p
    simp only [Memory.write] at hq
    split at hq
    · split at hq
      · exact .inl hq
      · rcases List.mem_cons.1 hq with rfl | hq
        · exact .inr ⟨rfl, ‹_›⟩
        · exact .inl hq
    · split at hq
      · split at hq
        · exact .inl (List.mem_cons_of_mem _ hq)
        · rcases List.mem_cons.1 hq with rfl | hq
          · exact .inr ⟨rfl, ‹_›⟩
          · exact .inl (List.mem_cons_of_mem _ hq)
      · rcases List.mem_cons.1 hq with rfl | hq
        · exact .inl (by simp)
        · exact (ih hq).imp (List.mem_cons_of_mem _) id

/-- A write keeps the canonical form. -/
theorem Memory.write_wf (f : Font) (m : Memory) (a : Nat) (v : Byte) (h : Memory.wf f m) (ha : a < memSize) :
    Memory.wf f (Memory.write f m a v) := by
  refine ⟨?_, fun q hq => ?_⟩
  · induction m with
    | nil => by_cases hv : v = Memory.unlisted f a <;> simp [Memory.write, hv]
    | cons p m ih =>
      obtain ⟨b, w⟩ := p
      have hlt := Memory.wf_head_lt h
      have tail := ih (Memory.wf_tail h)
      simp only [Memory.write]
      split
      · rename_i hab
        split
        · exact h.1
        · refine List.pairwise_cons.2 ⟨fun q hq => ?_, h.1⟩
          rcases List.mem_cons.1 hq with rfl | hq
          · exact hab
          · exact lt_trans hab (hlt q hq)
      · rename_i hab
        split
        · rename_i he
          split
          · exact (Memory.wf_tail h).1
          · exact List.pairwise_cons.2 ⟨fun q hq => by simpa [he] using hlt q hq, (Memory.wf_tail h).1⟩
        · rename_i he
          refine List.pairwise_cons.2 ⟨fun q hq => ?_, tail⟩
          rcases Memory.mem_write hq with hq | ⟨rfl, -⟩
          · exact hlt q hq
          · show b < a
            omega
  · rcases Memory.mem_write hq with hq | ⟨rfl, hv⟩
    · exact h.2 q hq
    · exact ⟨ha, hv⟩

/-- The empty list, which reset memory is, is in canonical form. -/
theorem Memory.nil_wf (f : Font) : Memory.wf f [] := ⟨List.Pairwise.nil, by simp⟩

/-! ## One byte and a transfer -/

theorem cellOf_lt (ea : Nat) : cellOf ea < memSize := Nat.mod_lt _ (by decide)

theorem cellOf_of_le {ea : Nat} (h : ea ≤ 0xFFF) : cellOf ea = ea :=
  Nat.mod_eq_of_lt (Nat.lt_succ_of_le h)

/-- Two different bytes of a transfer of at most 4096 bytes fall in different cells (R66). -/
theorem cellOf_add_ne {base j k : Nat} (hj : j < memSize) (hk : k < memSize) (hjk : j ≠ k) :
    cellOf (base + j) ≠ cellOf (base + k) := by
  simp only [cellOf, memSize] at *
  omega

theorem State.byteAt_putByte_self (s : State) (ea : Nat) (b : Byte) (h : Memory.wf s.cfg.font s.mem) :
    (s.putByte ea b).byteAt ea = b :=
  Memory.read_write_self _ _ _ _ h

theorem State.byteAt_putByte_of_ne (s : State) (ea c : Nat) (b : Byte) (h : cellOf c ≠ cellOf ea) :
    (s.putByte ea b).byteAt c = s.byteAt c :=
  Memory.read_write_of_ne _ _ _ _ _ h

theorem State.putByte_wf (s : State) (ea : Nat) (b : Byte) (h : Memory.wf s.cfg.font s.mem) :
    Memory.wf (s.putByte ea b).cfg.font (s.putByte ea b).mem :=
  Memory.write_wf _ _ _ _ h (cellOf_lt ea)

/-- A transfer into memory changes memory and nothing else. -/
theorem State.putBytes_eq (s : State) (base : Nat) (bs : List Byte) :
    s.putBytes base bs = { s with mem := (s.putBytes base bs).mem } := by
  induction bs generalizing s base with
  | nil => rfl
  | cons b bs ih => rw [State.putBytes, ih]; rfl

@[simp] theorem State.putBytes_cfg (s : State) (base : Nat) (bs : List Byte) :
    (s.putBytes base bs).cfg = s.cfg := by rw [State.putBytes_eq]

theorem State.putBytes_wf (s : State) (base : Nat) (bs : List Byte) (h : Memory.wf s.cfg.font s.mem) :
    Memory.wf s.cfg.font (s.putBytes base bs).mem := by
  induction bs generalizing s base with
  | nil => exact h
  | cons b bs ih => exact ih (s.putByte base b) (base + 1) (s.putByte_wf base b h)

/-- A transfer leaves alone every cell that is none of its own. -/
theorem State.byteAt_putBytes_of_ne (s : State) (base c : Nat) (bs : List Byte)
    (h : ∀ k < bs.length, cellOf c ≠ cellOf (base + k)) : (s.putBytes base bs).byteAt c = s.byteAt c := by
  induction bs generalizing s base with
  | nil => rfl
  | cons b bs ih =>
    have tail := ih (s.putByte base b) (base + 1) fun k hk => by
      have := h (k + 1) (Nat.succ_lt_succ hk)
      rwa [show base + (k + 1) = base + 1 + k by omega] at this
    rw [State.putBytes, tail]
    exact s.byteAt_putByte_of_ne base c b (h 0 (Nat.succ_pos _))

/-- Byte `k` of a transfer of at most 4096 bytes is found at `base + k`. -/
theorem State.byteAt_putBytes (s : State) (base k : Nat) (bs : List Byte) (hk : k < bs.length)
    (hlen : bs.length ≤ memSize) (h : Memory.wf s.cfg.font s.mem) :
    (s.putBytes base bs).byteAt (base + k) = bs[k] := by
  induction bs generalizing s base k with
  | nil => simp at hk
  | cons b bs ih =>
    have hl : bs.length < memSize := hlen
    cases k with
    | zero =>
      rw [State.putBytes, State.byteAt_putBytes_of_ne]
      · exact s.byteAt_putByte_self base b h
      · intro j hj
        rw [show base + 1 + j = base + (j + 1) by omega]
        exact cellOf_add_ne (Nat.lt_of_le_of_lt (Nat.zero_le _) hl) (by omega) (by omega)
    | succ k =>
      have := ih (s.putByte base b) (base + 1) k (Nat.lt_of_succ_lt_succ hk) hl.le (s.putByte_wf base b h)
      rw [show base + (k + 1) = base + 1 + k by omega]
      simpa [State.putBytes] using this

/-- R66: a transfer that is not in error uses, byte by byte, the cells R53 names under either policy. -/
theorem transferError_none_iff (p : AddrPolicy) (base len : Nat) :
    transferError p base len = none ↔ p = .mask ∨ len = 0 ∨ base + len ≤ memSize := by
  cases p with
  | mask => simp [transferError]
  | fault =>
    simp only [transferError, memSize, reduceCtorEq, false_or]
    split <;> simp <;> omega

theorem State.readTransfer_cases (s : State) (base len : Nat) :
    (transferError s.cfg.addrPolicy base len = none ∧ s.readTransfer base len = .ok (s.bytesAt base len)) ∨
    (∃ ea, transferError s.cfg.addrPolicy base len = some ea ∧ s.readTransfer base len = .error ea) := by
  unfold State.readTransfer
  cases h : transferError s.cfg.addrPolicy base len <;> simp

theorem State.writeTransfer_cases (s : State) (base : Nat) (bs : List Byte) :
    (transferError s.cfg.addrPolicy base bs.length = none ∧ s.writeTransfer base bs = .ok (s.putBytes base bs)) ∨
    (∃ ea, transferError s.cfg.addrPolicy base bs.length = some ea ∧ s.writeTransfer base bs = .error ea) := by
  unfold State.writeTransfer
  cases h : transferError s.cfg.addrPolicy base bs.length <;> simp

end Sys2Proof.Machine
end

