-- ==== Sys2Proof/Laws/Ops.lean ====
section
/-! SUPPORT. One lemma per shared operation of Machine/Ops.lean that says everything it can do: stack, block register
transfers, key selection, and how a step ends. -/

namespace Sys2Proof.Machine

open Sys2Proof.Config

/-! ## How a step ends -/

@[simp] theorem complete_eq_next (s t : State) : complete s = .next t ↔ t = s.setOutcome .ok := by
  simp [complete, eq_comm]

@[simp] theorem raise_eq_next (e : ErrorRecord) (s t : State) :
    raise e s = .next t ↔ t = s.setOutcome (.error e) := by
  simp [raise, eq_comm]

@[simp] theorem raiseIn_eq_next (ins : Instr) (k : ErrorKind) (ea : Option (BitVec 17)) (s t : State) :
    raiseIn ins k ea s = .next t ↔ t = s.setOutcome (.error ⟨k, s.pc - 2, some (encode ins), ea⟩) := by
  simp [raiseIn]

/-! ## Stack -/

/-- A push succeeds exactly when a slot is free (10_state.md R25, 41_control_flow.md R113). -/
theorem State.push_of_lt (s : State) (w : Word) (h : s.sp.val < 16) :
    s.push w = some { s with stack := s.stack.set s.sp.val w, sp := ⟨s.sp.val + 1, Nat.succ_lt_succ h⟩ } := by
  simp [State.push, h]

theorem State.push_of_full (s : State) (w : Word) (h : ¬ s.sp.val < 16) : s.push w = none := by
  simp [State.push, h]

/-- A pop succeeds exactly when a slot is occupied (R25, R111). -/
theorem State.pop_of_pos (s : State) (h : 0 < s.sp.val) :
    s.pop = some (s.stack[s.sp.val - 1]'(by omega),
      { s with sp := ⟨s.sp.val - 1, by omega⟩ }) := by
  simp [State.pop, h]

theorem State.pop_of_empty (s : State) (h : ¬ 0 < s.sp.val) : s.pop = none := by
  simp [State.pop, h]

/-! ## Block register transfers -/

@[simp] theorem State.bytesAt_length (s : State) (base len : Nat) : (s.bytesAt base len).length = len := by
  simp [State.bytesAt]

@[simp] theorem State.bytesAt_getElem (s : State) (base len k : Nat) (h : k < (s.bytesAt base len).length) :
    (s.bytesAt base len)[k] = s.byteAt (base + k) := by
  simp [State.bytesAt]

@[simp] theorem State.regsUpTo_length (s : State) (x : Reg) : (s.regsUpTo x).length = x.val + 1 := by
  have := x.isLt
  simp only [State.regsUpTo, List.length_take, Vector.length_toList]
  omega

theorem State.regsUpTo_getElem (s : State) (x k : Reg) (h : k.val < (s.regsUpTo x).length) :
    (s.regsUpTo x)[k.val] = s.reg k := by
  simp [State.regsUpTo, State.reg]

/-- Loading registers from a list changes registers and nothing else. -/
theorem State.setRegsFrom_eq (s : State) (x : Nat) (bs : List Byte) :
    s.setRegsFrom x bs = { s with v := (s.setRegsFrom x bs).v } := by
  induction bs generalizing s x with
  | nil => rfl
  | cons b bs ih =>
    rw [State.setRegsFrom]
    split
    · rw [ih]; rfl
    · rfl

/-- Register `y` takes the byte at its place in the list, if there is one. -/
theorem State.setRegsFrom_reg (s : State) (x : Nat) (bs : List Byte) (y : Reg) :
    (s.setRegsFrom x bs).reg y =
      if h : x ≤ y.val ∧ y.val < x + bs.length then bs[y.val - x]'(by omega) else s.reg y := by
  induction bs generalizing s x with
  | nil => simp only [State.setRegsFrom, List.length_nil]; rw [dif_neg (by omega)]
  | cons b bs ih =>
    have hy := y.isLt
    rw [State.setRegsFrom]
    split
    · rename_i hx
      rw [ih]
      by_cases he : y.val = x
      · have : y = ⟨x, hx⟩ := Fin.ext he
        subst this
        rw [dif_neg (by simp), dif_pos (by simp)]
        simp
      · have hne : y ≠ ⟨x, hx⟩ := fun h => he (congrArg Fin.val h)
        by_cases hin : x + 1 ≤ y.val ∧ y.val < x + 1 + bs.length
        · rw [dif_pos hin, dif_pos (by simp only [List.length_cons]; omega)]
          simp only [show y.val - x = (y.val - (x + 1)) + 1 by omega, List.getElem_cons_succ]
        · rw [dif_neg hin, dif_neg (by simp only [List.length_cons]; omega), State.setReg_reg_of_ne _ _ _ _ hne]
    · rw [dif_neg (by omega)]

/-! ## Key selection -/

theorem lowestFrom_spec (m : BitVec 16) (k fuel : Nat) (hk : k + fuel = 16)
    (h : ∃ j, k ≤ j ∧ j < 16 ∧ m.getLsbD j = true) :
    m.getLsbD (lowestFrom m k fuel).val = true ∧
      ∀ j, k ≤ j → j < (lowestFrom m k fuel).val → m.getLsbD j = false := by
  induction fuel generalizing k with
  | zero => obtain ⟨j, h1, h2, -⟩ := h; omega
  | succ fuel ih =>
    rw [lowestFrom]
    split
    · rename_i hb
      have hv : (Fin.ofNat 16 k).val = k := Nat.mod_eq_of_lt (by omega)
      rw [hv]
      exact ⟨hb, fun j h1 h2 => absurd h1 (by omega)⟩
    · rename_i hb
      have hb' : m.getLsbD k = false := by simpa using hb
      have next : ∃ j, k + 1 ≤ j ∧ j < 16 ∧ m.getLsbD j = true := by
        obtain ⟨j, h1, h2, h3⟩ := h
        refine ⟨j, ?_, h2, h3⟩
        rcases Nat.eq_or_lt_of_le h1 with rfl | h1
        · exact absurd h3 hb
        · exact h1
      obtain ⟨h1, h2⟩ := ih (k + 1) (by omega) next
      refine ⟨h1, fun j hj hlt => ?_⟩
      rcases Nat.eq_or_lt_of_le hj with rfl | hj
      · exact hb'
      · exact h2 j hj hlt

theorem exists_bit_of_ne_zero (m : BitVec 16) (h : m ≠ 0) : ∃ j, 0 ≤ j ∧ j < 16 ∧ m.getLsbD j = true := by
  by_contra hn
  apply h
  apply BitVec.eq_of_getLsbD_eq
  intro j hj
  by_contra hb
  exact hn ⟨j, Nat.zero_le j, hj, by simpa using hb⟩

/-- The lowest key is down, and no key below it is (44_keypad_timers_random.md R173, D13). -/
theorem lowestKey_spec (m : BitVec 16) (h : m ≠ 0) :
    m.getLsbD (lowestKey m).val = true ∧ ∀ j < (lowestKey m).val, m.getLsbD j = false :=
  have := lowestFrom_spec m 0 16 rfl (exists_bit_of_ne_zero m h)
  ⟨this.1, fun j hj => this.2 j (Nat.zero_le j) hj⟩

/-- Whatever `KEY_SELECT` is, it answers a key that is down (R173). -/
theorem keySelect_down (ks : KeySelect) (m : BitVec 16) (h : m ≠ 0) : m.getLsbD (keySelect ks m).val = true := by
  cases ks with
  | lowest => exact (lowestKey_spec m h).1
  | other =>
    rw [keySelect]
    split
    · assumption
    · exact (lowestKey_spec m h).1

@[simp] theorem decimalDigits_length (b : Byte) : (decimalDigits b).length = 3 := rfl

end Sys2Proof.Machine
end

