-- ==== Sys2Proof/Laws/Step.lean ====
section
/-! SUPPORT. What the step does in each of its cases (30_encoding.md R80), said once, and the transfers of the memory
instructions in the words the claims use. -/

namespace Sys2Proof.Machine

open Sys2Proof.Config

theorem inRange_iff (s : State) (base len : Nat) :
    InRange s base len ↔ transferError s.cfg.addrPolicy base len = none :=
  (transferError_none_iff s.cfg.addrPolicy base len).symm

/-- A transfer that is not in range reports the lowest of its addresses above 0xFFF (20_memory.md R66). -/
theorem transferError_of_not_inRange (s : State) (base len : Nat) (h : ¬ InRange s base len) :
    transferError s.cfg.addrPolicy base len = some (BitVec.ofNat 17 (max base 0x1000)) := by
  rw [inRange_iff] at h
  unfold transferError at h ⊢
  split at h
  · exact absurd rfl h
  · split at h <;> simp_all

theorem readTransfer_of_inRange (s : State) (base len : Nat) (h : InRange s base len) :
    s.readTransfer base len = .ok (s.bytesAt base len) := by
  simp [State.readTransfer, (inRange_iff s base len).1 h]

theorem readTransfer_of_not_inRange (s : State) (base len : Nat) (h : ¬ InRange s base len) :
    s.readTransfer base len = .error (BitVec.ofNat 17 (max base 0x1000)) := by
  simp [State.readTransfer, transferError_of_not_inRange s base len h]

theorem writeTransfer_of_inRange (s : State) (base : Nat) (bs : List Byte) (h : InRange s base bs.length) :
    s.writeTransfer base bs = .ok (s.putBytes base bs) := by
  simp [State.writeTransfer, (inRange_iff s base bs.length).1 h]

theorem writeTransfer_of_not_inRange (s : State) (base : Nat) (bs : List Byte) (h : ¬ InRange s base bs.length) :
    s.writeTransfer base bs = .error (BitVec.ofNat 17 (max base 0x1000)) := by
  simp [State.writeTransfer, transferError_of_not_inRange s base bs.length h]

/-- Stored bytes leave every cell outside the transfer alone. -/
theorem State.byteAt_putBytes_of_not_inTransfer (s : State) (base a : Nat) (bs : List Byte)
    (h : ¬ InTransfer base bs.length a) : (s.putBytes base bs).byteAt a = s.byteAt a :=
  s.byteAt_putBytes_of_ne base a bs fun k hk he => h ⟨k, hk, he.symm⟩

theorem fetch_of_inRange (s : State) (h : InRange s s.pc.toNat 2) :
    s.fetch = .ok (wordOfBytes (s.byteAt s.pc.toNat) (s.byteAt (s.pc.toNat + 1))) := by
  simp [State.fetch, (inRange_iff s s.pc.toNat 2).1 h]

theorem fetch_of_not_inRange (s : State) (h : ¬ InRange s s.pc.toNat 2) :
    s.fetch = .error (BitVec.ofNat 17 (max s.pc.toNat 0x1000)) := by
  simp [State.fetch, transferError_of_not_inRange s s.pc.toNat 2 h]

theorem step_of_await (s : State) (h : s.await = true) : step s = awaitKey s := by
  simp [step, h]

theorem step_of_fetch_error (s : State) (ea : BitVec 17) (h : s.await = false) (hf : s.fetch = .error ea) :
    step s = raiseFetch ea s := by
  simp [step, h, hf]

theorem step_of_invalid (s : State) (w : Word) (r : Reject) (h : s.await = false) (hf : s.fetch = .ok w)
    (hd : decodeWord w = .error r) : step s = raiseInvalid w s := by
  simp [step, h, hf, hd]

theorem step_of_decoded (s : State) (w : Word) (i : Instr) (h : s.await = false) (hf : s.fetch = .ok w)
    (hd : decodeWord w = .ok i) : step s = exec i s.advancePc := by
  simp [step, h, hf, hd]

/-- The four things a step can be (R80). -/
theorem step_cases (s : State) :
    (s.await = true ∧ step s = awaitKey s) ∨
    (s.await = false ∧ ∃ ea, s.fetch = .error ea ∧ step s = raiseFetch ea s) ∨
    (s.await = false ∧ ∃ w r, s.fetch = .ok w ∧ decodeWord w = .error r ∧ step s = raiseInvalid w s) ∨
    (s.await = false ∧ ∃ w i, s.fetch = .ok w ∧ decodeWord w = .ok i ∧ step s = exec i s.advancePc) := by
  cases ha : s.await with
  | true => exact .inl ⟨rfl, step_of_await s ha⟩
  | false =>
    right
    cases hf : s.fetch with
    | error ea => exact .inl ⟨rfl, ea, rfl, step_of_fetch_error s ea ha hf⟩
    | ok w =>
      right
      cases hd : decodeWord w with
      | error r => exact .inl ⟨rfl, w, r, rfl, hd, step_of_invalid s w r ha hf hd⟩
      | ok i => exact .inr ⟨rfl, w, i, rfl, hd, step_of_decoded s w i ha hf hd⟩

end Sys2Proof.Machine
end

