-- ==== Sys2Proof/Laws/Exec.lean ====
section
/-! SUPPORT. For each instruction that can end in two ways, the two next states, said once; for the others, the one
next state; when a step ends with an error; and what a draw and a flag come to. -/

namespace Sys2Proof.Machine

open Sys2Proof.Config

/-- The state an execute-phase error leaves (60_exceptions.md R208). -/
def State.failed (s : State) (ins : Instr) (k : ErrorKind) (ea : Option (BitVec 17)) : State :=
  s.setOutcome (.error ⟨k, s.pc - 2, some (encode ins), ea⟩)

theorem raiseIn_eq (ins : Instr) (k : ErrorKind) (ea : Option (BitVec 17)) (s : State) :
    raiseIn ins k ea s = .next (s.failed ins k ea) := rfl

/-- RET ends in one of two ways (41_control_flow.md R111). -/
theorem exec_ret_cases (s : State) :
    (∃ h : 0 < s.sp.val, exec .ret s =
      .next { s with sp := ⟨s.sp.val - 1, by omega⟩, pc := s.stack[s.sp.val - 1]'(by omega), outcome := .ok }) ∨
    (s.sp.val = 0 ∧ exec .ret s = .next (s.failed .ret .stackUnderflow none)) := by
  by_cases h : 0 < s.sp.val
  · exact .inl ⟨h, by simp only [exec, execRet, State.pop_of_pos s h]; rfl⟩
  · exact .inr ⟨by omega, by simp only [exec, execRet, State.pop_of_empty s h]; rfl⟩

/-- CALL ends in one of two ways (R113). -/
theorem exec_call_cases (s : State) (nnn : Addr12) :
    (∃ h : s.sp.val < 16, exec (.call nnn) s =
      .next { s with
        stack := s.stack.set s.sp.val s.pc
        sp := ⟨s.sp.val + 1, Nat.succ_lt_succ h⟩
        pc := zextAddr nnn
        outcome := .ok }) ∨
    (s.sp.val = 16 ∧ exec (.call nnn) s = .next (s.failed (.call nnn) .stackOverflow none)) := by
  by_cases h : s.sp.val < 16
  · exact .inl ⟨h, by simp only [exec, execCall, State.push_of_lt s s.pc h]; rfl⟩
  · exact .inr ⟨by omega, by simp only [exec, execCall, State.push_of_full s s.pc h]; rfl⟩

/-- The draw of a sprite from the framebuffer of a state (40_display.md R101). -/
def State.drawn (s : State) (x y : Reg) (n : Nat) : Blit :=
  (Blit.mk s.fb false).rows ((s.reg y).toNat % 32) ((s.reg x).toNat % 64) (s.bytesAt s.i.toNat n)

/-- DRW ends in one of two ways (R101). -/
theorem exec_drw_cases (s : State) (x y : Reg) (n : Nat) :
    (InRange s s.i.toNat n ∧ exec (.drw x y n) s =
      .next ((((s.setFb (s.drawn x y n).fb).setFlag (s.drawn x y n).collision).setRedraw true).setOutcome .ok)) ∨
    (¬ InRange s s.i.toNat n ∧ exec (.drw x y n) s =
      .next (s.failed (.drw x y n) .addressOutOfRange (some (BitVec.ofNat 17 (max s.i.toNat 0x1000))))) := by
  by_cases h : InRange s s.i.toNat n
  · exact .inl ⟨h, by simp only [exec, execDrw, State.base, readTransfer_of_inRange s _ _ h]; rfl⟩
  · exact .inr ⟨h, by simp only [exec, execDrw, State.base, readTransfer_of_not_inRange s _ _ h]; rfl⟩

/-- LD B ends in one of two ways (43_index_memory.md R153). -/
theorem exec_ldB_cases (s : State) (x : Reg) :
    (InRange s s.i.toNat 3 ∧ exec (.ldB x) s =
      .next ((s.putBytes s.i.toNat (decimalDigits (s.reg x))).setOutcome .ok)) ∨
    (¬ InRange s s.i.toNat 3 ∧ exec (.ldB x) s =
      .next (s.failed (.ldB x) .addressOutOfRange (some (BitVec.ofNat 17 (max s.i.toNat 0x1000))))) := by
  by_cases h : InRange s s.i.toNat 3
  · exact .inl ⟨h, by
      simp only [exec, execLdB, State.base, writeTransfer_of_inRange s _ (decimalDigits (s.reg x)) h]; rfl⟩
  · exact .inr ⟨h, by
      simp only [exec, execLdB, State.base, writeTransfer_of_not_inRange s _ (decimalDigits (s.reg x)) h]; rfl⟩

/-- LD [I], Vx ends in one of two ways (R154). -/
theorem exec_storeRegs_cases (s : State) (x : Reg) :
    (InRange s s.i.toNat (x.val + 1) ∧ exec (.storeRegs x) s =
      .next ((s.putBytes s.i.toNat (s.regsUpTo x)).setOutcome .ok)) ∨
    (¬ InRange s s.i.toNat (x.val + 1) ∧ exec (.storeRegs x) s =
      .next (s.failed (.storeRegs x) .addressOutOfRange (some (BitVec.ofNat 17 (max s.i.toNat 0x1000))))) := by
  by_cases h : InRange s s.i.toNat (x.val + 1)
  · refine .inl ⟨h, ?_⟩
    rw [← State.regsUpTo_length s x] at h
    simp only [exec, execStoreRegs, State.base, writeTransfer_of_inRange s _ _ h]
    rfl
  · refine .inr ⟨h, ?_⟩
    rw [← State.regsUpTo_length s x] at h
    simp only [exec, execStoreRegs, State.base, writeTransfer_of_not_inRange s _ _ h]
    rfl

/-- LD Vx, [I] ends in one of two ways (R155). -/
theorem exec_loadRegs_cases (s : State) (x : Reg) :
    (InRange s s.i.toNat (x.val + 1) ∧ exec (.loadRegs x) s =
      .next ((s.setRegsFrom 0 (s.bytesAt s.i.toNat (x.val + 1))).setOutcome .ok)) ∨
    (¬ InRange s s.i.toNat (x.val + 1) ∧ exec (.loadRegs x) s =
      .next (s.failed (.loadRegs x) .addressOutOfRange (some (BitVec.ofNat 17 (max s.i.toNat 0x1000))))) := by
  by_cases h : InRange s s.i.toNat (x.val + 1)
  · exact .inl ⟨h, by simp only [exec, execLoadRegs, State.base, readTransfer_of_inRange s _ _ h]; rfl⟩
  · exact .inr ⟨h, by simp only [exec, execLoadRegs, State.base, readTransfer_of_not_inRange s _ _ h]; rfl⟩

/-- LD Vx, K ends in one of two ways (44_keypad_timers_random.md R173). -/
theorem exec_ldVxK_cases (s : State) (x : Reg) :
    (s.cfg.fx0aMode = .wait ∧ exec (.ldVxK x) s = .next ((s.startAwait x).setOutcome .ok)) ∨
    (s.cfg.fx0aMode = .unimplemented ∧ exec (.ldVxK x) s = .next (s.failed (.ldVxK x) .unimplemented none)) := by
  cases h : s.cfg.fx0aMode with
  | wait => exact .inl ⟨rfl, by simp only [exec, execLdVxK, h]; rfl⟩
  | unimplemented => exact .inr ⟨rfl, by simp only [exec, execLdVxK, h]; rfl⟩

/-! ## Errors -/

/-- When instruction `i` ends with an error in state `s`, of which kind, and which effective address it reports
(60_exceptions.md R200, R203 to R206). -/
def FailsWith (s : State) (i : Instr) (k : ErrorKind) (ea : Option (BitVec 17)) : Prop :=
  (k = .stackUnderflow ∧ ea = none ∧ i = .ret ∧ s.sp.val = 0) ∨
  (k = .stackOverflow ∧ ea = none ∧ (∃ n, i = .call n) ∧ s.sp.val = 16) ∨
  (k = .unimplemented ∧ ea = none ∧ (∃ x, i = .ldVxK x) ∧ s.cfg.fx0aMode = .unimplemented) ∨
  (k = .addressOutOfRange ∧ ea = some (BitVec.ofNat 17 (max s.i.toNat 0x1000)) ∧
    ((∃ x y n, i = .drw x y n ∧ ¬ InRange s s.i.toNat n) ∨ (∃ x, i = .ldB x ∧ ¬ InRange s s.i.toNat 3) ∨
     (∃ x, (i = .storeRegs x ∨ i = .loadRegs x) ∧ ¬ InRange s s.i.toNat (x.val + 1))))

/-- A transfer is out of range only under `ADDR_POLICY = FAULT` (20_memory.md R53, R66). -/
theorem not_inRange_iff (s : State) (base len : Nat) :
    ¬ InRange s base len ↔ s.cfg.addrPolicy = .fault ∧ 1 ≤ len ∧ 4096 < base + len := by
  unfold InRange
  cases s.cfg.addrPolicy <;> simp
  omega

/-- An instruction ends with Ok, or with an error under that error's condition and then changes nothing (R208). -/
theorem exec_ok_or_failed (i : Instr) (s t : State) (h : exec i s = .next t) :
    t.outcome = .ok ∨ ∃ k ea, t = s.failed i k ea ∧
      FailsWith s i k ea := by
  cases i
  case ret =>
    rcases exec_ret_cases s with ⟨_, h'⟩ | ⟨h0, h'⟩ <;> rw [h'] at h <;> cases h
    · exact .inl rfl
    · exact .inr ⟨_, _, rfl, .inl ⟨rfl, rfl, rfl, h0⟩⟩
  case call n =>
    rcases exec_call_cases s n with ⟨_, h'⟩ | ⟨h0, h'⟩ <;> rw [h'] at h <;> cases h
    · exact .inl rfl
    · exact .inr ⟨_, _, rfl, .inr (.inl ⟨rfl, rfl, ⟨_, rfl⟩, h0⟩)⟩
  case drw x y n =>
    rcases exec_drw_cases s x y n with ⟨_, h'⟩ | ⟨h0, h'⟩ <;> rw [h'] at h <;> cases h
    · exact .inl rfl
    · exact .inr ⟨_, _, rfl, .inr (.inr (.inr ⟨rfl, rfl, .inl ⟨_, _, _, rfl, h0⟩⟩))⟩
  case ldB x =>
    rcases exec_ldB_cases s x with ⟨_, h'⟩ | ⟨h0, h'⟩ <;> rw [h'] at h <;> cases h
    · exact .inl rfl
    · exact .inr ⟨_, _, rfl, .inr (.inr (.inr ⟨rfl, rfl, .inr (.inl ⟨_, rfl, h0⟩)⟩))⟩
  case storeRegs x =>
    rcases exec_storeRegs_cases s x with ⟨_, h'⟩ | ⟨h0, h'⟩ <;> rw [h'] at h <;> cases h
    · exact .inl rfl
    · exact .inr ⟨_, _, rfl, .inr (.inr (.inr ⟨rfl, rfl, .inr (.inr ⟨_, .inl rfl, h0⟩)⟩))⟩
  case loadRegs x =>
    rcases exec_loadRegs_cases s x with ⟨_, h'⟩ | ⟨h0, h'⟩ <;> rw [h'] at h <;> cases h
    · exact .inl rfl
    · exact .inr ⟨_, _, rfl, .inr (.inr (.inr ⟨rfl, rfl, .inr (.inr ⟨_, .inr rfl, h0⟩)⟩))⟩
  case ldVxK x =>
    rcases exec_ldVxK_cases s x with ⟨_, h'⟩ | ⟨h0, h'⟩ <;> rw [h'] at h <;> cases h
    · exact .inl rfl
    · exact .inr ⟨_, _, rfl, .inr (.inr (.inl ⟨rfl, rfl, ⟨_, rfl⟩, h0⟩))⟩
  all_goals (cases h; exact .inl rfl)

/-- A step that awaits a key ends with Ok (30_encoding.md R80). -/
theorem awaitKey_outcome (s t : State) (h : awaitKey s = .next t) : t.outcome = .ok := by
  unfold awaitKey at h; split at h <;> cases h <;> rfl

/-- A step that ends with an error: at the fetch, at the decode, or in an instruction (R201, R208). -/
theorem step_error_cases (s t : State) (e : ErrorRecord) (h : step s = .next t) (he : t.outcome = .error e) :
    s.await = false ∧
    ((∃ a, ¬ InRange s s.pc.toNat 2 ∧ s.fetch = .error a ∧
        e = ⟨.addressOutOfRange, s.pc, none, some (BitVec.ofNat 17 (max s.pc.toNat 0x1000))⟩ ∧
        t = s.setOutcome (.error e)) ∨
     (∃ w r, s.fetch = .ok w ∧ decodeWord w = .error r ∧
        e = ⟨.invalidOpcode, s.pc, some w, none⟩ ∧ t = s.advancePc.setOutcome (.error e)) ∨
     (∃ w i k ea, s.fetch = .ok w ∧ decodeWord w = .ok i ∧
        e = ⟨k, s.pc, some (encode i), ea⟩ ∧ t = s.advancePc.setOutcome (.error e) ∧
       FailsWith s i k ea)) := by
  rcases step_cases s with ⟨_, h'⟩ | ⟨ha, ea, hf, h'⟩ | ⟨ha, w, r, hf, hd, h'⟩ | ⟨ha, w, i, hf, hd, h'⟩ <;> rw [h'] at h
  · rw [awaitKey_outcome s t h] at he; cases he
  · refine ⟨ha, .inl ⟨ea, ?_⟩⟩
    have hn : ¬ InRange s s.pc.toNat 2 := fun hr => by rw [fetch_of_inRange s hr] at hf; cases hf
    rw [fetch_of_not_inRange s hn] at hf
    cases hf; cases h; cases he
    exact ⟨hn, fetch_of_not_inRange s hn, rfl, rfl⟩
  · cases h; cases he
    exact ⟨ha, .inr (.inl ⟨w, r, hf, hd, rfl, rfl⟩)⟩
  · rcases exec_ok_or_failed i _ t h with ho | ⟨k, ea, ht, hk⟩
    · rw [ho] at he; cases he
    · have hpc : s.advancePc.pc - 2 = s.pc := by simp
      subst ht
      simp only [State.failed, State.setOutcome_outcome, StepOutcome.error.injEq] at he
      rw [hpc] at he
      subst he
      refine ⟨ha, .inr (.inr ⟨w, i, k, ea, hf, hd, rfl, ?_, hk⟩)⟩
      simp only [State.failed, hpc]

/-! ## The draw -/

theorem State.drawn_pixel (s : State) (x y : Reg) (n r c : Nat) (hr : r < 32) (hc : c < 64) :
    (s.drawn x y n).fb.pixel r c = (s.fb.pixel r c ^^
      spriteBit (s.bytesAt s.i.toNat n) ((s.reg y).toNat % 32) ((s.reg x).toNat % 64) r c) :=
  Blit.rows_pixel _ _ _ _ _ _ hr hc

theorem State.drawn_collision (s : State) (x y : Reg) (n : Nat) :
    (s.drawn x y n).collision = true ↔ ∃ r c, r < 32 ∧ c < 64 ∧ s.fb.pixel r c = true ∧
      spriteBit (s.bytesAt s.i.toNat n) ((s.reg y).toNat % 32) ((s.reg x).toNat % 64) r c = true := by
  rw [State.drawn, Blit.rows_collision]
  simp only [Bool.false_eq_true, false_or]
  constructor <;> (rintro ⟨r, c, h1, h2, h3, h4⟩; exact ⟨r, c, h1, h2, h4, h3⟩)

/-! ## Flag values -/

@[simp] theorem flagByte_eq_one (b : Bool) : flagByte b = 1 ↔ b = true := by cases b <;> simp [flagByte]

theorem flagByte_zero_or_one (b : Bool) : flagByte b = 0 ∨ flagByte b = 1 := by cases b <;> simp [flagByte]

theorem flagByte_lowBit (a : Byte) : (flagByte (lowBit a)).toNat = a.toNat % 2 := by revert a; decide

theorem flagByte_highBit (a : Byte) : (flagByte (highBit a)).toNat = a.toNat / 128 := by revert a; decide

end Sys2Proof.Machine
end

