-- ==== Sys2Proof/Laws/PerInstr.lean ====
section
/-! SUPPORT. The per-instruction family RoundTrip: decoding the word of a well-formed instruction gives it back
(30_encoding.md R82, R85, R86), one lemma per constructor. -/

namespace Sys2Proof.Laws.RoundTrip

/-- Decoding the encoding of a well-formed instruction gives it back. -/
def Statement (i : Instr) : Prop := i.wf = true → decodeWord (encode i) = .ok i

theorem cls : Statement .cls := fun _ => by decide

theorem ret : Statement .ret := fun _ => by decide

theorem jp (nnn : Addr12) : Statement (.jp nnn) := fun _ => by
  simp [encode, decodeWord, opField_encNNN]

theorem call (nnn : Addr12) : Statement (.call nnn) := fun _ => by
  simp [encode, decodeWord, opField_encNNN]

theorem ldI (nnn : Addr12) : Statement (.ldI nnn) := fun _ => by
  simp [encode, decodeWord, opField_encNNN]

theorem jpV0 (nnn : Addr12) : Statement (.jpV0 nnn) := fun _ => by
  simp [encode, decodeWord, opField_encNNN]

theorem seImm (x : Reg) (kk : Byte) : Statement (.seImm x kk) := fun _ => by
  simp [encode, decodeWord, opField_encXKK]

theorem sneImm (x : Reg) (kk : Byte) : Statement (.sneImm x kk) := fun _ => by
  simp [encode, decodeWord, opField_encXKK]

theorem ldImm (x : Reg) (kk : Byte) : Statement (.ldImm x kk) := fun _ => by
  simp [encode, decodeWord, opField_encXKK]

theorem addImm (x : Reg) (kk : Byte) : Statement (.addImm x kk) := fun _ => by
  simp [encode, decodeWord, opField_encXKK]

theorem rnd (x : Reg) (kk : Byte) : Statement (.rnd x kk) := fun _ => by
  simp [encode, decodeWord, opField_encXKK]

theorem seReg (x y : Reg) : Statement (.seReg x y) := fun _ => by
  simp [encode, decodeWord, decodeFamily5, opField_encXYN, xField_encXYN, yField_encXYN, nField_encXYN]

theorem ldReg (x y : Reg) : Statement (.ldReg x y) := fun _ => by
  simp [encode, decodeWord, decodeFamily8, opField_encXYN, xField_encXYN, yField_encXYN, nField_encXYN]

theorem orReg (x y : Reg) : Statement (.orReg x y) := fun _ => by
  simp [encode, decodeWord, decodeFamily8, opField_encXYN, xField_encXYN, yField_encXYN, nField_encXYN]

theorem andReg (x y : Reg) : Statement (.andReg x y) := fun _ => by
  simp [encode, decodeWord, decodeFamily8, opField_encXYN, xField_encXYN, yField_encXYN, nField_encXYN]

theorem xorReg (x y : Reg) : Statement (.xorReg x y) := fun _ => by
  simp [encode, decodeWord, decodeFamily8, opField_encXYN, xField_encXYN, yField_encXYN, nField_encXYN]

theorem addReg (x y : Reg) : Statement (.addReg x y) := fun _ => by
  simp [encode, decodeWord, decodeFamily8, opField_encXYN, xField_encXYN, yField_encXYN, nField_encXYN]

theorem subReg (x y : Reg) : Statement (.subReg x y) := fun _ => by
  simp [encode, decodeWord, decodeFamily8, opField_encXYN, xField_encXYN, yField_encXYN, nField_encXYN]

theorem shr (x y : Reg) : Statement (.shr x y) := fun _ => by
  simp [encode, decodeWord, decodeFamily8, opField_encXYN, xField_encXYN, yField_encXYN, nField_encXYN]

theorem subn (x y : Reg) : Statement (.subn x y) := fun _ => by
  simp [encode, decodeWord, decodeFamily8, opField_encXYN, xField_encXYN, yField_encXYN, nField_encXYN]

theorem shl (x y : Reg) : Statement (.shl x y) := fun _ => by
  simp [encode, decodeWord, decodeFamily8, opField_encXYN, xField_encXYN, yField_encXYN, nField_encXYN]

theorem sneReg (x y : Reg) : Statement (.sneReg x y) := fun _ => by
  simp [encode, decodeWord, decodeFamily9, opField_encXYN, xField_encXYN, yField_encXYN, nField_encXYN]

theorem drw (x y : Reg) (n : Nat) : Statement (.drw x y n) := fun h => by
  have hn : n < 16 := by simpa [Instr.wf] using h
  simp [encode, decodeWord, opField_encXYN, xField_encXYN, yField_encXYN, nField_encXYN, hn]

theorem skp (x : Reg) : Statement (.skp x) := fun _ => by
  simp [encode, decodeWord, decodeFamilyE, opField_encX, xField_encX, kkField_encX]

theorem sknp (x : Reg) : Statement (.sknp x) := fun _ => by
  simp [encode, decodeWord, decodeFamilyE, opField_encX, xField_encX, kkField_encX]

theorem ldVxDT (x : Reg) : Statement (.ldVxDT x) := fun _ => by
  simp [encode, decodeWord, decodeFamilyF, opField_encX, xField_encX, kkField_encX]

theorem ldVxK (x : Reg) : Statement (.ldVxK x) := fun _ => by
  simp [encode, decodeWord, decodeFamilyF, opField_encX, xField_encX, kkField_encX]

theorem ldDTVx (x : Reg) : Statement (.ldDTVx x) := fun _ => by
  simp [encode, decodeWord, decodeFamilyF, opField_encX, xField_encX, kkField_encX]

theorem ldSTVx (x : Reg) : Statement (.ldSTVx x) := fun _ => by
  simp [encode, decodeWord, decodeFamilyF, opField_encX, xField_encX, kkField_encX]

theorem addI (x : Reg) : Statement (.addI x) := fun _ => by
  simp [encode, decodeWord, decodeFamilyF, opField_encX, xField_encX, kkField_encX]

theorem ldF (x : Reg) : Statement (.ldF x) := fun _ => by
  simp [encode, decodeWord, decodeFamilyF, opField_encX, xField_encX, kkField_encX]

theorem ldB (x : Reg) : Statement (.ldB x) := fun _ => by
  simp [encode, decodeWord, decodeFamilyF, opField_encX, xField_encX, kkField_encX]

theorem storeRegs (x : Reg) : Statement (.storeRegs x) := fun _ => by
  simp [encode, decodeWord, decodeFamilyF, opField_encX, xField_encX, kkField_encX]

theorem loadRegs (x : Reg) : Statement (.loadRegs x) := fun _ => by
  simp [encode, decodeWord, decodeFamilyF, opField_encX, xField_encX, kkField_encX]

end Sys2Proof.Laws.RoundTrip
end

