-- ==== Sys2Proof/Tests/Slice0.lean ====
section
/-! SUPPORT. Our own tests. Expected results are those of 95_test_vectors.md, or are written out by hand from the
patterns of 30_encoding.md R85; none was read off the model. Then one witness or more for every obligation that has
hypotheses. -/

namespace Sys2Proof.Tests

open Sys2Proof.Machine Sys2Proof.Config

/-! ## Well-formedness: the check refuses the ill-formed term -/

theorem test_wf_refuses_seventeen_rows : (Instr.drw 0 0 16).wf = false := by decide

theorem test_wf_admits_fifteen_rows : (Instr.drw 0 0 15).wf = true := by decide

/-! ## Decoding: every constructor, from a word written bit by bit from R85 (op, x, y, n or kk or nnn) -/

theorem test_decode_family_0 :
    decodeWord 0b0000_0000_1110_0000 = .ok .cls ∧
    decodeWord 0b0000_0000_1110_1110 = .ok .ret := by decide

theorem test_decode_jumps :
    decodeWord 0b0001_0010_0011_0100 = .ok (.jp 0x234) ∧
    decodeWord 0b0010_0101_0110_0111 = .ok (.call 0x567) ∧
    decodeWord 0b1011_1001_1010_1011 = .ok (.jpV0 0x9AB) ∧
    decodeWord 0b1010_1100_1101_1110 = .ok (.ldI 0xCDE) := by decide

theorem test_decode_immediates :
    decodeWord 0b0011_0001_0010_0011 = .ok (.seImm 1 0x23) ∧
    decodeWord 0b0100_0100_0101_0110 = .ok (.sneImm 4 0x56) ∧
    decodeWord 0b0110_0111_1000_1001 = .ok (.ldImm 7 0x89) ∧
    decodeWord 0b0111_1010_1011_1100 = .ok (.addImm 10 0xBC) ∧
    decodeWord 0b1100_1101_1110_1111 = .ok (.rnd 13 0xEF) := by decide

theorem test_decode_register_skips :
    decodeWord 0b0101_0001_0010_0000 = .ok (.seReg 1 2) ∧
    decodeWord 0b1001_0011_0100_0000 = .ok (.sneReg 3 4) := by decide

theorem test_decode_family_8 :
    decodeWord 0b1000_0001_0010_0000 = .ok (.ldReg 1 2) ∧
    decodeWord 0b1000_0011_0100_0001 = .ok (.orReg 3 4) ∧
    decodeWord 0b1000_0101_0110_0010 = .ok (.andReg 5 6) ∧
    decodeWord 0b1000_0111_1000_0011 = .ok (.xorReg 7 8) ∧
    decodeWord 0b1000_1001_1010_0100 = .ok (.addReg 9 10) ∧
    decodeWord 0b1000_1011_1100_0101 = .ok (.subReg 11 12) ∧
    decodeWord 0b1000_1101_1110_0110 = .ok (.shr 13 14) ∧
    decodeWord 0b1000_1111_0000_0111 = .ok (.subn 15 0) ∧
    decodeWord 0b1000_0001_1111_1110 = .ok (.shl 1 15) := by decide

theorem test_decode_draw : decodeWord 0b1101_0001_0010_1111 = .ok (.drw 1 2 15) := by decide

theorem test_decode_family_E :
    decodeWord 0b1110_0101_1001_1110 = .ok (.skp 5) ∧
    decodeWord 0b1110_1010_1010_0001 = .ok (.sknp 10) := by decide

theorem test_decode_family_F :
    decodeWord 0b1111_0001_0000_0111 = .ok (.ldVxDT 1) ∧
    decodeWord 0b1111_0010_0000_1010 = .ok (.ldVxK 2) ∧
    decodeWord 0b1111_0011_0001_0101 = .ok (.ldDTVx 3) ∧
    decodeWord 0b1111_0100_0001_1000 = .ok (.ldSTVx 4) ∧
    decodeWord 0b1111_0101_0001_1110 = .ok (.addI 5) ∧
    decodeWord 0b1111_0110_0010_1001 = .ok (.ldF 6) ∧
    decodeWord 0b1111_0111_0011_0011 = .ok (.ldB 7) ∧
    decodeWord 0b1111_1000_0101_0101 = .ok (.storeRegs 8) ∧
    decodeWord 0b1111_1001_0110_0101 = .ok (.loadRegs 9) := by decide

/-! The error rows of 95_test_vectors.md 2.1. -/

theorem test_decode_rejects_families_0_5_9 :
    decodeWord 0x0000 = .error (.invalidOpcode 0x0000) ∧
    decodeWord 0x00E1 = .error (.invalidOpcode 0x00E1) ∧
    decodeWord 0x0123 = .error (.invalidOpcode 0x0123) ∧
    decodeWord 0x5121 = .error (.invalidOpcode 0x5121) ∧
    decodeWord 0x9121 = .error (.invalidOpcode 0x9121) := by decide

theorem test_decode_rejects_family_8 :
    decodeWord 0x8128 = .error (.invalidOpcode 0x8128) ∧
    decodeWord 0x8129 = .error (.invalidOpcode 0x8129) ∧
    decodeWord 0x812A = .error (.invalidOpcode 0x812A) ∧
    decodeWord 0x812B = .error (.invalidOpcode 0x812B) ∧
    decodeWord 0x812C = .error (.invalidOpcode 0x812C) ∧
    decodeWord 0x812D = .error (.invalidOpcode 0x812D) ∧
    decodeWord 0x812F = .error (.invalidOpcode 0x812F) := by decide

theorem test_decode_rejects_families_E_F :
    decodeWord 0xE09F = .error (.invalidOpcode 0xE09F) ∧
    decodeWord 0xE0A0 = .error (.invalidOpcode 0xE0A0) ∧
    decodeWord 0xE000 = .error (.invalidOpcode 0xE000) ∧
    decodeWord 0xF000 = .error (.invalidOpcode 0xF000) ∧
    decodeWord 0xF01F = .error (.invalidOpcode 0xF01F) ∧
    decodeWord 0xF075 = .error (.invalidOpcode 0xF075) ∧
    decodeWord 0xF085 = .error (.invalidOpcode 0xF085) ∧
    decodeWord 0xFFFF = .error (.invalidOpcode 0xFFFF) := by decide

/-- The byte at the lower address is the high byte (20_memory.md R54); one byte is no instruction (R82). -/
theorem test_decode_bytes :
    decode [0x12, 0x34, 0x56] = .ok (.jp 0x234, [0x56]) ∧ decode [0x12] = .error .truncated ∧
    decode [] = .error .truncated := by decide

theorem test_decode_table_word :
    decodeTableWord 16 0xD015 = some (.drw 0 1 5) ∧ decodeTableWord 16 0x0000 = none := by decide

/-! ## Single steps from the reset state (95_test_vectors.md part 2) -/

/-- The state after one step that runs the word. -/
def after (s : State) (w : Nat) : State :=
  match step (s.withFetchWord 16 w) with
  | .next t => t
  | .fault _ => s
  | .refused _ => s

/-- The reset state with some registers set. -/
def withRegs (l : List (Reg × Byte)) : State := l.foldl (fun s p => s.setReg p.1 p.2) State.reset

/-- The reset state with `I` and some registers set. -/
def withI (i : Word) (l : List (Reg × Byte)) : State := (withRegs l).setI i

/-- The same machine under `ADDR_POLICY = FAULT`. -/
def faulting (s : State) : State := { s with cfg := { s.cfg with addrPolicy := .fault } }

/-- The registers `V[x]`, `VF` and the outcome. -/
def vx (x : Reg) (s : State) : Byte × Byte × StepOutcome := (s.reg x, s.reg vF, s.outcome)

/-- The error of an instruction word at 0x200. -/
def errorOf (k : ErrorKind) (w : Word) (ea : Option (BitVec 17)) : StepOutcome := .error ⟨k, 0x0200, some w, ea⟩

def s12 (a b : Byte) : State := withRegs [(1, a), (2, b)]

theorem test_cls : (after (State.reset.setFb (Framebuffer.toggle Framebuffer.clear 3 4)) 0x00E0).fb.pixel 3 4 = false := by
  decide

theorem test_ret :
    let t := after { State.reset with sp := 1, stack := State.reset.stack.set 0 0x0206 } 0x00EE
    (t.pc, t.sp, t.stack[0]) = (0x0206, 0, 0x0206) := by decide

theorem test_ret_underflow :
    let t := after State.reset 0x00EE
    (t.pc, t.sp, t.outcome) = (0x0202, 0, errorOf .stackUnderflow 0x00EE none) := by decide

theorem test_jp : (after State.reset 0x1300).pc = 0x0300 ∧ (after State.reset 0x1201).pc = 0x0201 := by decide

theorem test_call :
    let t := after { State.reset with sp := 15 } 0x2210
    (t.pc, t.sp, t.stack[15]) = (0x0210, 16, 0x0202) := by decide

theorem test_call_overflow :
    let t := after { State.reset with sp := 16 } 0x2210
    (t.pc, t.sp, t.stack[15], t.outcome) = (0x0202, 16, 0, errorOf .stackOverflow 0x2210 none) := by decide

theorem test_se_imm :
    (after (withRegs [(3, 0x10)]) 0x3310).pc = 0x0204 ∧ (after (withRegs [(3, 0x10)]) 0x3311).pc = 0x0202 := by decide

theorem test_sne_imm :
    (after (withRegs [(3, 0x10)]) 0x4310).pc = 0x0202 ∧ (after (withRegs [(3, 0x10)]) 0x4311).pc = 0x0204 := by decide

theorem test_se_reg :
    (after (s12 7 7) 0x5120).pc = 0x0204 ∧ (after (s12 7 8) 0x5120).pc = 0x0202 := by decide

theorem test_sne_reg :
    (after (s12 7 8) 0x9120).pc = 0x0204 ∧ (after (s12 7 7) 0x9120).pc = 0x0202 := by decide

theorem test_jp_v0 :
    (after (withRegs [(0, 0xFF)]) 0xBFFF).pc = 0x10FE ∧ (after (withRegs [(5, 9)]) 0xB500).pc = 0x0500 := by decide

/-- PC = 0xFFFE under MASK: the fetch is at 0xFFE, PC wraps to 0, and the skip makes it 2. -/
theorem test_pc_wraps : (after { State.reset with pc := 0xFFFE } 0x3000).pc = 0x0002 := by decide

theorem test_ld_imm : vx 10 (after State.reset 0x6A2C) = (0x2C, 0, .ok) ∧ vx 15 (after State.reset 0x6F07) = (7, 7, .ok) := by
  decide

theorem test_add_imm_sets_no_flag :
    vx 1 (after (withRegs [(1, 0xF0), (15, 1)]) 0x7120) = (0x10, 1, .ok) ∧
    vx 1 (after (s12 0 0) 0x71FF) = (0xFF, 0, .ok) := by decide

theorem test_ld_reg : vx 1 (after (withRegs [(1, 0xF0), (2, 0x20), (15, 1)]) 0x8120) = (0x20, 1, .ok) := by decide

theorem test_or : vx 1 (after (withRegs [(1, 0xF0), (2, 0x20), (15, 1)]) 0x8121) = (0xF0, 1, .ok) := by decide

theorem test_and : vx 1 (after (withRegs [(1, 0xF0), (2, 0x20), (15, 1)]) 0x8122) = (0x20, 1, .ok) := by decide

theorem test_xor : vx 1 (after (withRegs [(1, 0xF0), (2, 0x20), (15, 1)]) 0x8123) = (0xD0, 1, .ok) := by decide

theorem test_add_reg :
    vx 1 (after (s12 0xF0 0x20) 0x8124) = (0x10, 1, .ok) ∧ vx 1 (after (s12 0xFF 0x00) 0x8124) = (0xFF, 0, .ok) := by decide

/-- VF as destination: the flag wins; VF as source: its old value is the addend. -/
theorem test_add_reg_vf :
    vx 1 (after (withRegs [(15, 0xFF), (1, 2)]) 0x8F14) = (2, 1, .ok) ∧
    vx 1 (after (withRegs [(15, 0xFF), (1, 2)]) 0x81F4) = (1, 1, .ok) := by decide

theorem test_sub :
    vx 1 (after (s12 0xF0 0x20) 0x8125) = (0xD0, 1, .ok) ∧ vx 1 (after (s12 0x00 0x01) 0x8125) = (0xFF, 0, .ok) := by decide

theorem test_sub_vf :
    vx 1 (after (withRegs [(15, 0xFF), (1, 2)]) 0x8F15) = (2, 1, .ok) ∧
    vx 1 (after (withRegs [(15, 0xFF), (1, 2)]) 0x81F5) = (3, 0, .ok) := by decide

theorem test_subn :
    vx 1 (after (s12 0xF0 0x20) 0x8127) = (0x30, 0, .ok) ∧ vx 1 (after (s12 7 7) 0x8127) = (0x00, 1, .ok) := by decide

theorem test_shr :
    vx 1 (after (s12 0xF0 0x20) 0x8126) = (0x78, 0, .ok) ∧ vx 3 (after (withRegs [(3, 1)]) 0x8306) = (0, 1, .ok) := by decide

theorem test_shl :
    vx 1 (after (s12 0xF0 0x20) 0x812E) = (0xE0, 1, .ok) ∧ vx 3 (after (withRegs [(3, 0x7F)]) 0x830E) = (0xFE, 0, .ok) := by
  decide

theorem test_ld_i : (after State.reset 0xA2F0).i = 0x02F0 := by decide

theorem test_add_i :
    (after (withI 0x0FFF [(2, 1)]) 0xF21E).i = 0x1000 ∧ (after (withI 0xFFFF [(3, 2)]) 0xF31E).i = 0x0001 := by decide

theorem test_ld_f :
    (after (withRegs [(4, 0x0F)]) 0xF429).i = 0x004B ∧ (after (withRegs [(3, 0xFF)]) 0xF329).i = 0x04FB := by decide

theorem test_ld_b :
    let t := after (withI 0x0FFE [(0, 123)]) 0xF033
    (t.byteAt 0xFFE, t.byteAt 0xFFF, t.byteAt 0x000, t.byteAt 0x001, t.i) = (1, 2, 3, 0x90, 0x0FFE) := by decide

theorem test_ld_b_out_of_range :
    let t := after (faulting (withI 0x0FFE [(0, 123)])) 0xF033
    (t.byteAt 0xFFE, t.pc, t.outcome) = (0, 0x0202, errorOf .addressOutOfRange 0xF033 (some 0x1000)) := by decide

theorem test_store :
    let t := after (withI 0x0400 [(0, 1), (1, 2), (2, 3), (3, 9)]) 0xF255
    (t.byteAt 0x400, t.byteAt 0x401, t.byteAt 0x402, t.byteAt 0x403, t.i) = (1, 2, 3, 0, 0x0400) := by decide

theorem test_store_at_the_top :
    let s := faulting (withI 0x0FFE [(0, 0x7B), (1, 0xAA)])
    ((after s 0xF155).byteAt 0xFFF, (after s 0xF255).byteAt 0xFFE, (after s 0xF255).outcome) =
      (0xAA, 0, errorOf .addressOutOfRange 0xF255 (some 0x1000)) := by decide

theorem test_load :
    let t := after (((withI 0x0300 [(3, 0x77)]).putBytes 0x300 [2, 5, 4])) 0xF265
    (t.reg 0, t.reg 1, t.reg 2, t.reg 3, t.i) = (2, 5, 4, 0x77, 0x0300) := by decide

theorem test_load_out_of_range :
    (after (faulting (withI 0x1234 [])) 0xF065).outcome = errorOf .addressOutOfRange 0xF065 (some 0x1234) := by decide

/-- The clipped draw at column 62, row 31. -/
theorem test_drw_clips :
    let t := after (withRegs [(0, 0x7E), (1, 0xFF)]) 0xD015
    (t.fb.pixel 31 62, t.fb.pixel 31 63, t.fb.pixel 31 0, t.fb.pixel 0 62, t.reg vF, t.redraw) =
      (true, true, false, false, 0, true) := by decide

theorem test_drw_collides :
    let s := ((withI 0x0300 []).putBytes 0x300 [0xC0, 0x60]).setFb (Framebuffer.toggle Framebuffer.clear 0 1)
    let t := after s 0xD012
    (t.fb.pixel 0 0, t.fb.pixel 0 1, t.fb.pixel 1 1, t.fb.pixel 1 2, t.fb.pixel 1 0, t.reg vF) =
      (true, false, true, true, false, 1) := by decide

theorem test_rnd :
    let t := after { State.reset with rngSupply := [0xA7, 1] } 0xC10F
    (t.reg 1, t.rngSupply, t.rngDraws) = (7, [1], 1) := by decide

theorem test_skp :
    (after { withRegs [(0, 5)] with keypad := 0x0020 } 0xE09E).pc = 0x0204 ∧
    (after { withRegs [(0, 0x15)] with keypad := 0xFFFF } 0xE09E).pc = 0x0202 := by decide

theorem test_sknp :
    (after { withRegs [(0, 5)] with keypad := 0x0020 } 0xE0A1).pc = 0x0202 ∧
    (after { withRegs [(0, 0x15)] with keypad := 0xFFFF } 0xE0A1).pc = 0x0204 := by decide

theorem test_ld_vx_dt : (after (State.reset.setDt 0x3C) 0xF307).reg 3 = 0x3C := by decide

theorem test_ld_dt_vx : (after (withRegs [(3, 0x3C)]) 0xF315).dt = 0x3C := by decide

theorem test_ld_st_vx : (after (withRegs [(0, 5)]) 0xF018).st = 5 := by decide

theorem test_ld_vx_k :
    let t := after { State.reset with keypad := 0x0080 } 0xF30A
    (t.await, t.kx, t.pc, t.reg 3) = (true, 3, 0x0202, 0) := by decide

theorem test_ld_vx_k_unimplemented :
    let t := after { State.reset with cfg := { Params.default with fx0aMode := .unimplemented } } 0xF30A
    (t.await, t.pc, t.outcome) = (false, 0x0202, errorOf .unimplemented 0xF30A none) := by decide

/-- The lowest of keys 8 and 9. -/
theorem test_await_takes_lowest_key :
    ∃ t, step { State.reset with await := true, kx := 15, keypad := 0x0300 } = .next t ∧
      (t.reg 15, t.await, t.pc) = (8, false, 0x0200) := ⟨_, rfl, by decide⟩

/-- No `load` at all: the first step fetches 0x0000 (95_test_vectors.md, program 5 (c)). -/
theorem test_first_step_of_an_empty_machine :
    ∃ t, step State.reset = .next t ∧ (t.pc, t.outcome) = (0x0202, errorOf .invalidOpcode 0x0000 none) :=
  ⟨_, rfl, by decide⟩

/-- The default glyph table, first 16 bytes (95_test_vectors.md 2.4, last row). -/
theorem test_glyph_table :
    State.reset.bytesAt 0 16 =
      [0xF0, 0x90, 0x90, 0x90, 0xF0, 0x20, 0x60, 0x20, 0x20, 0x70, 0xF0, 0x10, 0xF0, 0x80, 0xF0, 0xF0] := by decide

/-- Writing the value an unlisted address reads as removes the entry. -/
theorem test_write_is_canonical :
    ((State.reset.putByte 0x300 7).putByte 0x300 0).mem = [] ∧ (State.reset.putByte 0 0xF0).mem = [] ∧
    ((State.reset.putByte 0x301 7).putByte 0x300 9).mem = [(0x300, 9), (0x301, 7)] := by decide

theorem test_tick :
    let t := (({ State.reset with st := 2 } : State)).tick
    (t.dt, t.st) = (0, 1) := by decide

/-! ## Witnesses: for every obligation with hypotheses, a state and operands that meet all of them together, one per
clause, at a boundary of its range -/

/-- FAULT with PC at the last address a fetch may use. -/
def lastFetch : State := faulting { State.reset with pc := 0x0FFE }

/-- FAULT with PC one further. -/
def pastFetch : State := faulting { State.reset with pc := 0x0FFF }

/-- FAULT with `I` at 0xFFE and V0, V1 set. -/
def nearTop : State := faulting (withI 0x0FFE [(0, 0x7B), (1, 0xAA)])

/-- A jump to itself at 0x200. -/
def selfJump : State := State.reset.putBytes 0x200 [0x12, 0x00]

theorem reset_inv : Inv State.reset := ⟨by decide, by decide⟩

theorem nearTop_inv : Inv nearTop := ⟨by decide, by decide⟩

theorem nearTop_inRange_two : InRange nearTop nearTop.i.toNat 2 := .inr (.inr (by decide))

theorem nearTop_not_inRange_three : ¬ InRange nearTop nearTop.i.toNat 3 :=
  (not_inRange_iff _ _ _).2 ⟨rfl, by decide, by decide⟩

theorem witness_decodeInvertsEncode : (Instr.drw 15 15 15).wf = true := by decide

theorem witness_encodeInvertsDecode : decodeWord 0xDFFF = .ok (.drw 15 15 15) := by decide

theorem witness_maskAndMatchTable :
    decodeWord 0x8AB6 = .ok (.shr 10 11) ∧ (0xF00F, 0x8006) ∈ opcodeRows ∧
    rowMatches 0x8AB6 (0xF00F, 0x8006) = true := by decide

theorem witness_stepFetches_runs :
    lastFetch.await = false ∧ InRange lastFetch lastFetch.pc.toNat 2 ∧
    (let s := lastFetch.putBytes 0xFFE [0x6A, 0x11]
     decodeWord (wordOfBytes (s.byteAt s.pc.toNat) (s.byteAt (s.pc.toNat + 1))) = .ok (.ldImm 10 0x11)) :=
  ⟨rfl, .inr (.inr (by decide)), by decide⟩

theorem witness_stepFetches_out_of_range :
    pastFetch.await = false ∧ pastFetch.cfg.addrPolicy = .fault ∧ 0xFFF ≤ pastFetch.pc.toNat := by decide

theorem witness_invalidWord :
    State.reset.await = false ∧ InRange State.reset State.reset.pc.toNat 2 ∧
    (0x0000 : Word) = wordOfBytes (State.reset.byteAt State.reset.pc.toNat)
      (State.reset.byteAt (State.reset.pc.toNat + 1)) ∧
    ∀ i, decodeWord 0x0000 ≠ .ok i :=
  ⟨rfl, .inl rfl, by decide, fun i => by
    have : decodeWord 0x0000 = .error (.invalidOpcode 0x0000) := by decide
    rw [this]; exact fun h => by cases h⟩

theorem witness_awaiting :
    (let s := { State.reset with await := true }; s.await = true ∧ s.keypad = 0) ∧
    (let s := { State.reset with await := true, keypad := 0x8000 }
     s.await = true ∧ s.keypad ≠ 0 ∧ s.cfg.keySelect = .lowest) := by decide

/-- An error with a fetched word: the reset machine with nothing loaded. -/
theorem witness_error_with_word :
    ∃ t, step State.reset = .next t ∧ t.outcome = .error ⟨.invalidOpcode, 0x0200, some 0x0000, none⟩ ∧
      State.reset.fetch = .ok 0x0000 := ⟨_, rfl, by decide, by decide⟩

/-- An error without one: a fetch at 0xFFF under FAULT. -/
theorem witness_error_without_word :
    ∃ t, step pastFetch = .next t ∧ t.outcome = .error ⟨.addressOutOfRange, 0x0FFF, none, some 0x1000⟩ ∧
      pastFetch.fetch = .error 0x1000 := ⟨_, rfl, by decide, by decide⟩

/-- An address error of an instruction: the effective address is that of the lowest byte above 0xFFF. -/
theorem witness_error_of_access :
    let s := nearTop.putBytes 0x200 [0xF2, 0x55]
    ∃ t, step s = .next t ∧ t.outcome = .error ⟨.addressOutOfRange, 0x0200, some 0xF255, some 0x1000⟩ :=
  ⟨_, rfl, by decide⟩

/-- Each clause of `ProgramCounterWriters` is met: an error, a jump, a call, a return, a skip, any other. -/
theorem witness_programCounter :
    (∃ t, exec .ret State.reset = .next t ∧ t.outcome ≠ .ok) ∧
    (∃ t, exec (.jp 0xFFF) State.reset = .next t ∧ t.outcome = .ok) ∧
    (∃ t, exec (.call 0xFFF) State.reset = .next t ∧ t.outcome = .ok) ∧
    (∃ t, exec .ret { State.reset with sp := 16 } = .next t ∧ t.outcome = .ok) ∧
    (∃ t, exec (.jpV0 0xFFF) (withRegs [(0, 0xFF)]) = .next t ∧ t.outcome = .ok) ∧
    (∃ t, exec (.seImm 0 0) { State.reset with pc := 0xFFFE } = .next t ∧ t.outcome = .ok) ∧
    (∃ t, exec .cls State.reset = .next t ∧ t.outcome = .ok) :=
  ⟨⟨_, rfl, by decide⟩, ⟨_, rfl, rfl⟩, ⟨_, rfl, rfl⟩, ⟨_, rfl, rfl⟩, ⟨_, rfl, rfl⟩, ⟨_, rfl, rfl⟩, ⟨_, rfl, rfl⟩⟩

/-- Each remaining kind of error occurs. -/
theorem witness_error_kinds :
    (∃ t, step ({ State.reset with sp := 16 }.putBytes 0x200 [0x22, 0x00]) = .next t ∧
      t.outcome = errorOf .stackOverflow 0x2200 none) ∧
    (∃ t, step (State.reset.putBytes 0x200 [0x00, 0xEE]) = .next t ∧
      t.outcome = errorOf .stackUnderflow 0x00EE none) ∧
    (∃ t, step ({ State.reset with cfg := { Params.default with fx0aMode := .unimplemented } }.putBytes 0x200
        [0xFF, 0x0A]) = .next t ∧ t.outcome = errorOf .unimplemented 0xFF0A none) :=
  ⟨⟨_, rfl, by decide⟩, ⟨_, rfl, by decide⟩, ⟨_, rfl, by decide⟩⟩

theorem witness_accessOutOfRange :
    pastFetch.cfg.addrPolicy = .fault ∧ pastFetch.await = false ∧ 0xFFF ≤ pastFetch.pc.toNat ∧
    nearTop.cfg.addrPolicy = .fault ∧ 0xFFF < nearTop.i.toNat + 3 - 1 ∧ 0xFFF < nearTop.i.toNat + 2 ∧
    0xFFF < nearTop.i.toNat + (2 : Reg).val := by decide

theorem witness_noAddressErrorUnderMask :
    State.reset.cfg.addrPolicy = .mask ∧
    ∃ t e, step State.reset = .next t ∧ t.outcome = .error e := ⟨rfl, _, _, rfl, rfl⟩

/-- Under FAULT the two bytes at 0xFFE and 0xFFF are still a fetch in range. -/
theorem witness_maskAgreesWithFault :
    ∃ t, lastFetch.cfg.addrPolicy = .fault ∧ step lastFetch = .next t ∧
      ∀ e, t.outcome = .error e → e.kind ≠ .addressOutOfRange :=
  ⟨_, rfl, rfl, fun e h => by cases h; decide⟩

/-- VF is not the destination of `8xy1` with x = 1, and is that of one with x = 15. -/
theorem witness_registersWritten :
    (∃ t, exec (.orReg 1 2) (s12 1 2) = .next t ∧ t.outcome = .ok ∧
      ¬ NamesDest (.orReg 1 2) vF ∧ ¬ (WritesFlag (.orReg 1 2) ∧ vF = vF)) ∧
    (∃ t, exec (.loadRegs 14) (s12 1 2) = .next t ∧ t.outcome = .ok ∧ ¬ NamesDest (.loadRegs 14) 15) :=
  ⟨⟨_, rfl, rfl, by simp [NamesDest, vF], by simp [WritesFlag]⟩, ⟨_, rfl, rfl, by simp [NamesDest]⟩⟩

theorem witness_flagWriters :
    (∃ t, exec (.addReg 15 1) (s12 1 2) = .next t ∧ t.outcome = .ok) ∧
    (∃ t, exec (.subReg 1 2) (s12 1 2) = .next t ∧ t.outcome = .ok) ∧
    (∃ t, exec (.shr 1 2) (s12 1 2) = .next t ∧ t.outcome = .ok) ∧
    (∃ t, exec (.subn 1 2) (s12 1 2) = .next t ∧ t.outcome = .ok) ∧
    (∃ t, exec (.shl 1 2) (s12 1 2) = .next t ∧ t.outcome = .ok) ∧
    (∃ t, exec (.drw 1 2 15) (s12 1 2) = .next t ∧ t.outcome = .ok) ∧
    (∃ t, exec (.ldImm 15 2) (s12 1 2) = .next t ∧ t.outcome = .ok) :=
  ⟨⟨_, rfl, rfl⟩, ⟨_, rfl, rfl⟩, ⟨_, rfl, rfl⟩, ⟨_, rfl, rfl⟩, ⟨_, rfl, rfl⟩, ⟨_, rfl, rfl⟩, ⟨_, rfl, rfl⟩⟩

/-- An instruction that meets the premises of every clause of the four writer tables but one's own. -/
theorem witness_writers :
    ∃ t, exec (.ldF 3) (s12 1 2) = .next t ∧ t.outcome = .ok ∧
      (∀ x, Instr.ldF 3 ≠ .ldB x ∧ Instr.ldF 3 ≠ .storeRegs x) ∧ (∀ nnn, Instr.ldF 3 ≠ .call nnn) ∧
      Instr.ldF 3 ≠ .ret ∧ (15 : Nat) ≠ (s12 1 2).sp.val ∧ Instr.ldF 3 ≠ .cls ∧
      (∀ x y n, Instr.ldF 3 ≠ .drw x y n) ∧ (∀ x, Instr.ldF 3 ≠ .ldVxK x) :=
  ⟨_, rfl, rfl, fun _ => ⟨by simp, by simp⟩, by simp, by simp, by decide, by simp, by simp, by simp⟩

theorem witness_redraw_is_set :
    ∃ t, exec (.drw 0 0 0) nearTop = .next t ∧ t.outcome = .ok := ⟨_, rfl, rfl⟩

theorem witness_oneRandomDraw :
    (let s := State.reset.putBytes 0x200 [0xC1, 0x00]
     s.await = false ∧ s.fetch = .ok 0xC100 ∧ decodeWord 0xC100 = .ok (.rnd 1 0x00)) ∧
    (let s := { State.reset with await := true }.putBytes 0x200 [0xC1, 0x00]
     s.await = true) := by decide

theorem witness_stepKeepsInvariant : Inv State.reset ∧ ∃ t, step State.reset = .next t := ⟨reset_inv, _, rfl⟩

/-- A history with a store, a load, a wait and a tick. -/
theorem witness_historiesKeepInvariant :
    Inv State.reset ∧
    ∃ t, runTransactions [.load [0xF3, 0x0A], .step, .tick, .keyDown 7, .step, .construct] State.reset = .next t :=
  ⟨reset_inv, _, rfl⟩

theorem witness_drw : InRange nearTop nearTop.i.toNat 2 ∧ ¬ InRange nearTop nearTop.i.toNat 3 :=
  ⟨nearTop_inRange_two, nearTop_not_inRange_three⟩

/-- The first draw writes VF, so the second is of the state it leaves. -/
theorem witness_drawingTwice :
    (14 : Reg) ≠ vF ∧ (0 : Reg) ≠ vF ∧ InRange nearTop nearTop.i.toNat 2 ∧
    ∃ t u, exec (.drw 14 0 2) nearTop = .next t ∧ exec (.drw 14 0 2) t = .next u :=
  ⟨by decide, by decide, nearTop_inRange_two, _, _, rfl, rfl⟩

theorem witness_ret :
    0 < ({ State.reset with sp := 1 } : State).sp.val ∧ 0 < ({ State.reset with sp := 16 } : State).sp.val ∧
    State.reset.sp.val = 0 := by decide

theorem witness_call :
    ({ State.reset with sp := 15 } : State).sp.val < 16 ∧ ({ State.reset with sp := 16 } : State).sp.val = 16 := by decide

theorem witness_callThenRet :
    ∃ t u, exec (.call 0x300) { State.reset with sp := 15 } = .next t ∧ t.outcome = .ok ∧
      exec .ret { t with pc := 0x0302 } = .next u := ⟨_, _, rfl, rfl, rfl⟩

theorem witness_glyphAddress :
    (∀ a, a < 80 → (withRegs [(4, 15)]).byteAt a = (withRegs [(4, 15)]).cfg.font.byte a) ∧
    ((withRegs [(4, 15)]).reg 4).toNat ≤ 15 ∧ ∃ t, exec (.ldF 4) (withRegs [(4, 15)]) = .next t :=
  ⟨by decide +kernel, by decide, _, rfl⟩

theorem witness_bcd :
    (Inv (nearTop.setI 0x0FFD) ∧ InRange (nearTop.setI 0x0FFD) 0xFFD 3) ∧ Inv State.reset ∧
    InRange State.reset 0xFFFF 3 ∧ ¬ InRange nearTop nearTop.i.toNat 3 :=
  ⟨⟨nearTop_inv, .inr (.inr (by decide))⟩, reset_inv, .inl rfl, nearTop_not_inRange_three⟩

/-- Also the witness of `LoadRegistersReadsBlock`. -/
theorem witness_store :
    (Inv nearTop ∧ InRange nearTop nearTop.i.toNat ((1 : Reg).val + 1)) ∧
    ¬ InRange nearTop nearTop.i.toNat ((2 : Reg).val + 1) :=
  ⟨⟨nearTop_inv, nearTop_inRange_two⟩, nearTop_not_inRange_three⟩

theorem witness_loadAfterStore :
    Inv nearTop ∧ InRange nearTop nearTop.i.toNat ((1 : Reg).val + 1) ∧
    ∃ t u, exec (.storeRegs 1) nearTop = .next t ∧
      exec (.loadRegs 1) { t with v := Vector.replicate 16 0 } = .next u :=
  ⟨nearTop_inv, nearTop_inRange_two, _, _, rfl, rfl⟩

theorem witness_storeIsSeen :
    let s := nearTop.setPc 0x0FFE
    Inv s ∧ InRange s s.i.toNat ((1 : Reg).val + 1) ∧ InRange s s.pc.toNat 2 ∧ 1 ≤ (1 : Reg).val ∧ s.i = s.pc ∧
    ∃ t, exec (.storeRegs 1) s = .next t :=
  ⟨nearTop_inv, .inr (.inr (by decide)), .inr (.inr (by decide)), by decide, rfl, _, rfl⟩

theorem witness_writeChangesOneCell :
    Inv State.reset ∧ cellOf 0x1FFF = cellOf 0xFFF ∧ cellOf 0x1000 ≠ cellOf 0xFFF := ⟨reset_inv, by decide, by decide⟩

theorem witness_canonical :
    Memory.wf Font.customary [(0, 1), (0xFFF, 7)] ∧
    ∀ a, Memory.read Font.customary [(0, 1), (0xFFF, 7)] a = Memory.read Font.customary [(0, 1), (0xFFF, 7)] a :=
  ⟨by decide, fun _ => rfl⟩

theorem witness_rnd :
    (let s := { State.reset with rngSupply := [0xA7] }; s.rngSupply = 0xA7 :: []) ∧
    (0x0F : Byte).getLsbD 4 = false ∧ (1 : Reg) ≠ 0 := by decide

theorem witness_waitForKey :
    (State.reset.cfg.fx0aMode = .wait ∧
      ∃ t, exec (.ldVxK 15) State.reset = .next t ∧ t.keypad = 0) ∧
    (∃ t, exec (.ldVxK 15) { State.reset with keypad := 1 } = .next t ∧ t.keypad ≠ 0) ∧
    (let s := { State.reset with cfg := { Params.default with fx0aMode := .unimplemented } }
     s.cfg.fx0aMode = .unimplemented) :=
  ⟨⟨rfl, _, rfl, rfl⟩, ⟨_, rfl, by decide⟩, rfl⟩

theorem witness_load :
    Inv State.reset ∧ (List.replicate 3584 (1 : Byte)).length ≤ 3584 ∧ 3584 < (List.replicate 3585 (1 : Byte)).length :=
  ⟨reset_inv, by rw [List.length_replicate], by rw [List.length_replicate]; decide⟩

theorem witness_keys : (15 ≤ 15 ∧ (14 : Nat) ≠ 15) ∧ 15 < 16 := by decide

theorem witness_ended : Ended selfJump := ⟨rfl, 0x200, rfl, by decide⟩

theorem witness_unobserved : ∃ t, step selfJump = .next t ∧ t.outcome = .ok := ⟨_, rfl, rfl⟩

theorem witness_staleSlots :
    let s := { State.reset with sp := 1 }
    (∀ j, j < s.sp.val → (s.stack.set 15 0x0BAD)[j]? = s.stack[j]?) ∧ s.stack.set 15 0x0BAD ≠ s.stack ∧
    ∃ t, step s = .next t :=
  ⟨by decide, by decide, _, rfl⟩

end Sys2Proof.Tests
end

/-! ## Totality: every instruction and every step has a next state (93_implementation_defined.md, end of part 1) -/

namespace Sys2Proof.Machine

/-- A step that awaits a key answers a next state whether or not a key is down (30_encoding.md R80). -/
theorem awaitKey_exists_next (s : State) : ∃ t, awaitKey s = .next t := by
  by_cases hk : s.keypad ≠ 0
  · exact ⟨_, if_pos hk⟩
  · exact ⟨_, if_neg hk⟩

/-- No arm of `exec` refuses or faults: the seven instructions that can err answer a next state on both of their ways,
and every other one completes. -/
theorem exec_exists_next (i : Instr) (s : State) : ∃ t, exec i s = .next t := by
  cases i
  case ret => obtain ⟨_, h⟩ | ⟨_, h⟩ := exec_ret_cases s <;> exact ⟨_, h⟩
  case call nnn => obtain ⟨_, h⟩ | ⟨_, h⟩ := exec_call_cases s nnn <;> exact ⟨_, h⟩
  case drw x y n => obtain ⟨_, h⟩ | ⟨_, h⟩ := exec_drw_cases s x y n <;> exact ⟨_, h⟩
  case ldVxK x => obtain ⟨_, h⟩ | ⟨_, h⟩ := exec_ldVxK_cases s x <;> exact ⟨_, h⟩
  case ldB x => obtain ⟨_, h⟩ | ⟨_, h⟩ := exec_ldB_cases s x <;> exact ⟨_, h⟩
  case storeRegs x => obtain ⟨_, h⟩ | ⟨_, h⟩ := exec_storeRegs_cases s x <;> exact ⟨_, h⟩
  case loadRegs x => obtain ⟨_, h⟩ | ⟨_, h⟩ := exec_loadRegs_cases s x <;> exact ⟨_, h⟩
  -- The 27 others are `complete` of a state.
  all_goals exact ⟨_, rfl⟩

/-- Each of the four things a step can be (R80) answers a next state. -/
theorem step_exists_next (s : State) : ∃ t, step s = .next t := by
  obtain ⟨_, h⟩ | ⟨_, ea, _, h⟩ | ⟨_, w, r, _, _, h⟩ | ⟨_, w, i, _, _, h⟩ := step_cases s <;> rw [h]
  · exact awaitKey_exists_next s
  · exact ⟨_, rfl⟩
  · exact ⟨_, rfl⟩
  · exact exec_exists_next i s.advancePc

/-- Settles O9: by the four cases of a step and the arms of `exec`. -/
theorem everyStepAnswersNextState : Obligations.EveryStepAnswersNextState :=
  ⟨step_exists_next, exec_exists_next⟩

end Sys2Proof.Machine

/-! ## What an instruction does: the error it meets, else one state in which it completes -/

namespace Sys2Proof.Machine

open Sys2Proof.Config

/-- Memory after bytes are stored at `base`, `base + 1`, ... (20_memory.md R66): what `State.putBytes` does to memory. -/
def Memory.writeBytes (f : Font) (m : Memory) (base : Nat) : List Byte → Memory
  | [] => m
  | b :: bs => Memory.writeBytes f (Memory.write f m (cellOf base) b) (base + 1) bs

theorem State.putBytes_eq_writeBytes (s : State) (base : Nat) (bs : List Byte) :
    s.putBytes base bs = { s with mem := Memory.writeBytes s.cfg.font s.mem base bs } := by
  induction bs generalizing s base with
  | nil => rfl
  | cons b bs ih => exact ih (s.putByte base b) (base + 1)

/-- The registers after `Fx65` (43_index_memory.md R155): `V0` to `V[x]` from memory, the others as they were. -/
def State.loadedRegs (s : State) (x : Reg) : Vector Byte 16 :=
  Vector.ofFn fun y => if y.val ≤ x.val then s.byteAt (s.i.toNat + y.val) else s.reg y

theorem State.loadedRegs_get (s : State) (x y : Reg) :
    (s.loadedRegs x)[y] = if y.val ≤ x.val then s.byteAt (s.i.toNat + y.val) else s.reg y := by
  rw [State.loadedRegs, Fin.getElem_fin, Vector.getElem_ofFn]

theorem State.setRegsFrom_bytesAt (s : State) (x : Reg) :
    s.setRegsFrom 0 (s.bytesAt s.i.toNat (x.val + 1)) = { s with v := s.loadedRegs x } := by
  have hv : (s.setRegsFrom 0 (s.bytesAt s.i.toNat (x.val + 1))).v = s.loadedRegs x := Vector.ext fun j hj => calc
    _ = if j ≤ x.val then s.byteAt (s.i.toNat + j) else s.v[j] := by
      simpa [State.reg] using s.setRegsFrom_reg 0 (s.bytesAt s.i.toNat (x.val + 1)) ⟨j, hj⟩
    _ = (s.loadedRegs x)[j] := (s.loadedRegs_get x ⟨j, hj⟩).symm
  rw [State.setRegsFrom_eq, hv]

/-- The state instruction `i` leaves when it meets no error, but for the step's return value. Every arm updates fields of
`s`, so that what it leaves alone is `s`'s own by definition; `exec_of_completes` ties it to `exec`. -/
def State.completed (s : State) : Instr → State
  | .cls => s.setFb Framebuffer.clear
  | .ret => { s with sp := ⟨s.sp.val - 1, by omega⟩, pc := s.stack[s.sp.val - 1]'(by omega) }
  | .jp nnn => s.setPc (zextAddr nnn)
  | .call nnn => { s with
      stack := s.stack.setIfInBounds s.sp.val s.pc
      sp := ⟨min (s.sp.val + 1) 16, by omega⟩
      pc := zextAddr nnn }
  | .seImm x kk => s.setPc (if s.reg x == kk then s.pc + 2 else s.pc)
  | .sneImm x kk => s.setPc (if s.reg x != kk then s.pc + 2 else s.pc)
  | .seReg x y => s.setPc (if s.reg x == s.reg y then s.pc + 2 else s.pc)
  | .ldImm x kk => s.setReg x kk
  | .addImm x kk => s.setReg x (addByte (s.reg x) kk)
  | .ldReg x y => s.setReg x (s.reg y)
  | .orReg x y => s.setReg x (s.reg x ||| s.reg y)
  | .andReg x y => s.setReg x (s.reg x &&& s.reg y)
  | .xorReg x y => s.setReg x (s.reg x ^^^ s.reg y)
  | .addReg x y => s.setResultFlag x (addByte (s.reg x) (s.reg y)) (carryOut (s.reg x) (s.reg y))
  | .subReg x y => s.setResultFlag x (subByte (s.reg x) (s.reg y)) (notBorrow (s.reg x) (s.reg y))
  | .shr x _ => s.setResultFlag x (halfByte (s.reg x)) (lowBit (s.reg x))
  | .subn x y => s.setResultFlag x (subByte (s.reg y) (s.reg x)) (notBorrow (s.reg y) (s.reg x))
  | .shl x _ => s.setResultFlag x (doubleByte (s.reg x)) (highBit (s.reg x))
  | .sneReg x y => s.setPc (if s.reg x != s.reg y then s.pc + 2 else s.pc)
  | .ldI nnn => s.setI (zextAddr nnn)
  | .jpV0 nnn => s.setPc (zextAddr nnn + zextByte (s.reg 0))
  | .rnd x kk => s.rngAdvance.setReg x (s.rngNext &&& kk)
  | .drw x y n => ((s.setFb (s.drawn x y n).fb).setFlag (s.drawn x y n).collision).setRedraw true
  | .skp x => s.setPc (if s.keyDown (s.reg x) then s.pc + 2 else s.pc)
  | .sknp x => s.setPc (if !s.keyDown (s.reg x) then s.pc + 2 else s.pc)
  | .ldVxDT x => s.setReg x s.dt
  | .ldVxK x => s.startAwait x
  | .ldDTVx x => s.setDt (s.reg x)
  | .ldSTVx x => s.setSt (s.reg x)
  | .addI x => s.setI (s.i + zextByte (s.reg x))
  | .ldF x => s.setI (glyphAddr (s.reg x))
  | .ldB x => { s with mem := Memory.writeBytes s.cfg.font s.mem s.i.toNat (decimalDigits (s.reg x)) }
  | .storeRegs x => { s with mem := Memory.writeBytes s.cfg.font s.mem s.i.toNat (s.regsUpTo x) }
  | .loadRegs x => { s with v := s.loadedRegs x }

/-- A skip is one write of PC (41_control_flow.md R110). -/
theorem State.skipIf_eq (s : State) (c : Bool) : s.skipIf c = s.setPc (if c then s.pc + 2 else s.pc) := by
  cases c <;> rfl

/-- Under an error's condition the instruction ends with that error (60_exceptions.md R200, R208). -/
theorem exec_of_failsWith {s : State} {i : Instr} {k : ErrorKind} {ea : Option (BitVec 17)}
    (h : FailsWith s i k ea) : exec i s = .next (s.failed i k ea) := by
  obtain ⟨rfl, rfl, rfl, h0⟩ | ⟨rfl, rfl, ⟨nnn, rfl⟩, h0⟩ | ⟨rfl, rfl, ⟨x, rfl⟩, h0⟩ |
    ⟨rfl, rfl, ⟨x, y, n, rfl, h0⟩ | ⟨x, rfl, h0⟩ | ⟨x, rfl | rfl, h0⟩⟩ := h
  · exact (exec_ret_cases s).elim (fun ⟨h, _⟩ => absurd h0 h.ne') And.right
  · exact (exec_call_cases s nnn).elim (fun ⟨h, _⟩ => absurd h0 h.ne) And.right
  · exact (exec_ldVxK_cases s x).elim (fun ⟨h, _⟩ => by simp [h0] at h) And.right
  · exact (exec_drw_cases s x y n).elim (fun ⟨h, _⟩ => absurd h h0) And.right
  · exact (exec_ldB_cases s x).elim (fun ⟨h, _⟩ => absurd h h0) And.right
  · exact (exec_storeRegs_cases s x).elim (fun ⟨h, _⟩ => absurd h h0) And.right
  · exact (exec_loadRegs_cases s x).elim (fun ⟨h, _⟩ => absurd h h0) And.right

/-- Where no error's condition holds the instruction ends with Ok. -/
theorem exec_of_completes {s : State} {i : Instr} (h : ¬ ∃ k ea, FailsWith s i k ea) :
    exec i s = .next ((s.completed i).setOutcome .ok) := by
  have not_failed (k ea) : exec i s ≠ .next (s.failed i k ea) := fun he => by
    obtain ho | ⟨k, ea, -, hf⟩ := exec_ok_or_failed i s _ he
    · cases ho
    · exact h ⟨k, ea, hf⟩
  cases i
  case ret => exact (exec_ret_cases s).elim (fun ⟨_, e⟩ => e) fun e => absurd e.2 (not_failed _ _)
  case call nnn =>
    obtain ⟨hsp, e⟩ | ⟨_, e⟩ := exec_call_cases s nnn
    · have hset : s.stack.setIfInBounds s.sp.val s.pc = s.stack.set s.sp.val s.pc hsp := by
        ext j hj; simp [Vector.getElem_set, Vector.getElem_setIfInBounds]
      simp only [e, State.completed, State.setOutcome, hset, Nat.min_eq_left (Nat.succ_le_of_lt hsp)]
    · exact absurd e (not_failed _ _)
  case drw x y n => exact (exec_drw_cases s x y n).elim And.right fun e => absurd e.2 (not_failed _ _)
  case ldVxK x => exact (exec_ldVxK_cases s x).elim And.right fun e => absurd e.2 (not_failed _ _)
  case ldB x =>
    obtain ⟨_, e⟩ | ⟨_, e⟩ := exec_ldB_cases s x
    · rw [e, State.putBytes_eq_writeBytes]; rfl
    · exact absurd e (not_failed _ _)
  case storeRegs x =>
    obtain ⟨_, e⟩ | ⟨_, e⟩ := exec_storeRegs_cases s x
    · rw [e, State.putBytes_eq_writeBytes]; rfl
    · exact absurd e (not_failed _ _)
  case loadRegs x =>
    obtain ⟨_, e⟩ | ⟨_, e⟩ := exec_loadRegs_cases s x
    · rw [e, State.setRegsFrom_bytesAt]; rfl
    · exact absurd e (not_failed _ _)
  case seImm | sneImm | seReg | sneReg | skp | sknp => exact congrArg complete (s.skipIf_eq _)
  all_goals rfl

/-- The inversion of `exec`: the two ways in which an instruction ends. -/
theorem exec_next_cases {i : Instr} {s t : State} (h : exec i s = .next t) :
    ((¬ ∃ k ea, FailsWith s i k ea) ∧ t = (s.completed i).setOutcome .ok) ∨
    ∃ k ea, FailsWith s i k ea ∧ t = s.failed i k ea := by
  by_cases hf : ∃ k ea, FailsWith s i k ea
  · obtain ⟨k, ea, hf⟩ := hf
    rw [exec_of_failsWith hf] at h
    exact .inr ⟨k, ea, hf, by cases h; rfl⟩
  · rw [exec_of_completes hf] at h
    exact .inl ⟨hf, by cases h; rfl⟩

/-- The instruction completes when it ends with Ok. -/
theorem eq_completed_of_ok {i : Instr} {s t : State} (h : exec i s = .next t) (ho : t.outcome = .ok) :
    t = (s.completed i).setOutcome .ok := by
  obtain ⟨-, rfl⟩ | ⟨k, ea, -, rfl⟩ := exec_next_cases h
  · rfl
  · cases ho

end Sys2Proof.Machine

/-! ## The frame of the completed state, field by field -/

namespace Sys2Proof.Machine

open Sys2Proof.Config

section
variable (s : State) (i : Instr)

@[simp] theorem State.completed_cfg : (s.completed i).cfg = s.cfg := by cases i <;> rfl

@[simp] theorem State.completed_keypad : (s.completed i).keypad = s.keypad := by cases i <;> rfl

theorem State.completed_dt :
    (s.completed i).dt = match i with | .ldDTVx x => s.reg x | _ => s.dt := by cases i <;> rfl

theorem State.completed_st :
    (s.completed i).st = match i with | .ldSTVx x => s.reg x | _ => s.st := by cases i <;> rfl

theorem State.completed_i :
    (s.completed i).i = match i with
      | .ldI nnn => zextAddr nnn
      | .addI x => s.i + zextByte (s.reg x)
      | .ldF x => glyphAddr (s.reg x)
      | _ => s.i := by cases i <;> rfl

theorem State.completed_fb (hcls : i ≠ .cls) (hdrw : ∀ x y n, i ≠ .drw x y n) : (s.completed i).fb = s.fb := by
  cases i
  case cls => exact absurd rfl hcls
  case drw x y n => exact absurd rfl (hdrw x y n)
  all_goals rfl

theorem State.completed_redraw (hdrw : ∀ x y n, i ≠ .drw x y n) : (s.completed i).redraw = s.redraw := by
  cases i
  case drw x y n => exact absurd rfl (hdrw x y n)
  all_goals rfl

theorem State.completed_await_kx (hk : ∀ x, i ≠ .ldVxK x) :
    (s.completed i).await = s.await ∧ (s.completed i).kx = s.kx := by
  cases i
  case ldVxK x => exact absurd rfl (hk x)
  all_goals exact ⟨rfl, rfl⟩

theorem Memory.writeBytes_wf {f : Font} {m : Memory} (base : Nat) (bs : List Byte) (h : Memory.wf f m) :
    Memory.wf f (Memory.writeBytes f m base bs) := by
  induction bs generalizing m base with
  | nil => exact h
  | cons b bs ih => exact ih (base + 1) (Memory.write_wf f m _ b h (cellOf_lt base))

/-- The two instructions that store keep the canonical form of memory; no other touches memory. -/
theorem State.completed_mem_wf (h : Memory.wf s.cfg.font s.mem) : Memory.wf s.cfg.font (s.completed i).mem := by
  cases i
  case ldB x => exact Memory.writeBytes_wf _ _ h
  case storeRegs x => exact Memory.writeBytes_wf _ _ h
  all_goals exact h

/-- A register the instruction neither names as destination nor writes as the flag keeps its value. -/
theorem State.completed_reg_of_not_dest (r : Reg) (hd : ¬ NamesDest i r) (hf : ¬ (WritesFlag i ∧ r = vF)) :
    (s.completed i).reg r = s.reg r := by
  cases i
  case ldImm | addImm | ldReg | orReg | andReg | xorReg | ldVxDT => exact s.setReg_reg_of_ne _ _ _ hd
  case rnd x kk => exact s.rngAdvance.setReg_reg_of_ne x r _ hd
  case addReg | subReg | shr | subn | shl =>
    have hv : r ≠ vF := fun h => hf ⟨trivial, h⟩
    exact (s.setResultFlag_reg ..).trans ((if_neg hv).trans (if_neg hd))
  case drw x y n =>
    have hv : r ≠ vF := fun h => hf ⟨trivial, h⟩
    exact (State.setFlag_reg ..).trans (if_neg hv)
  case loadRegs x =>
    have hx : ¬ r.val ≤ x.val := hd
    exact (s.loadedRegs_get x r).trans (if_neg hx)
  all_goals rfl

end

/-! ## Registers -/

/-- Settles O15: an error writes nothing (R208), and a completed instruction by its frame. -/
theorem registersWrittenOnlyAsNamed : Obligations.RegistersWrittenOnlyAsNamed := by
  intro i s t r h hr
  obtain ⟨-, rfl⟩ | ⟨k, ea, -, rfl⟩ := exec_next_cases h
  · obtain ⟨hd, hf⟩ := hr rfl
    exact s.completed_reg_of_not_dest i r hd hf
  · rfl

theorem State.setResultFlag_vF (s : State) (x : Reg) (b : Byte) (c : Bool) :
    (s.setResultFlag x b c).reg vF = flagByte c :=
  (s.setResultFlag_reg ..).trans (if_pos rfl)

theorem flagByte_decide (p : Prop) [Decidable p] : flagByte (decide p) = if p then 1 else 0 := by
  by_cases h : p <;> simp [flagByte, h]

/-- A draw collides exactly when it turns a lit pixel off (40_display.md R101). -/
theorem State.drawn_collision_iff_turned_off (s : State) (x y : Reg) (n : Nat) :
    (s.drawn x y n).collision = true ↔
      ∃ r c, r < 32 ∧ c < 64 ∧ s.fb.pixel r c = true ∧ (s.drawn x y n).fb.pixel r c = false := by
  rw [State.drawn_collision]
  refine exists_congr fun r => exists_congr fun c => and_congr_right fun hr => and_congr_right fun hc =>
    and_congr_right fun hp => ?_
  rw [State.drawn_pixel s x y n r c hr hc, hp]
  simp

/-- Settles O16: each flag writer's last write is the flag; every other instruction by its frame. -/
theorem flagRegisterAfterEachFlagWriter : Obligations.FlagRegisterAfterEachFlagWriter := by
  intro i s t h ho
  obtain rfl := eq_completed_of_ok h ho
  have kept (hf : ¬ WritesFlag i) : NamesDest i vF ∨ (s.completed i).reg vF = s.reg vF :=
    or_iff_not_imp_left.2 fun hd => s.completed_reg_of_not_dest i vF hd fun hw => hf hw.1
  cases i
  case addReg x y => exact (s.setResultFlag_vF ..).trans (flagByte_decide _)
  case subReg x y => exact (s.setResultFlag_vF ..).trans (flagByte_decide _)
  case subn x y => exact (s.setResultFlag_vF ..).trans (flagByte_decide _)
  case shr x y => exact (congrArg BitVec.toNat (s.setResultFlag_vF ..)).trans (flagByte_lowBit _)
  case shl x y => exact (congrArg BitVec.toNat (s.setResultFlag_vF ..)).trans (flagByte_highBit _)
  case drw x y n =>
    have hv : (s.completed (.drw x y n)).reg vF = flagByte (s.drawn x y n).collision :=
      (State.setFlag_reg ..).trans (if_pos rfl)
    have hc := (flagByte_eq_one _).trans (s.drawn_collision_iff_turned_off x y n)
    exact ⟨hv ▸ flagByte_zero_or_one _, hv ▸ hc⟩
  all_goals exact kept id

/-! ## I, the timers, the keypad, the parameters and PC -/

@[simp] theorem zextAddr_toNat (nnn : Addr12) : (zextAddr nnn).toNat = nnn.toNat := by
  have := nnn.isLt
  simp only [zextAddr, BitVec.toNat_ofNat]
  omega

@[simp] theorem zextByte_toNat (b : Byte) : (zextByte b).toNat = b.toNat := by
  have := b.isLt
  simp only [zextByte, BitVec.toNat_ofNat]
  omega

@[simp] theorem glyphAddr_toNat (b : Byte) : (glyphAddr b).toNat = b.toNat * 5 := by
  have := b.isLt
  simp only [glyphAddr, fontBase, glyphBytes, BitVec.toNat_ofNat]
  omega

/-- Settles O17: an error writes nothing (R208) and comes from none of the five writers; a completed instruction by its
frame. -/
theorem indexTimersAndKeypadWriters : Obligations.IndexTimersAndKeypadWriters := by
  intro i s t h
  obtain ⟨-, rfl⟩ | ⟨k, ea, hf, rfl⟩ := exec_next_cases h
  · refine ⟨?_, s.completed_dt i, s.completed_st i, s.completed_keypad i, s.completed_cfg i⟩
    refine (congrArg BitVec.toNat (s.completed_i i)).trans ?_
    cases i <;> simp
  · obtain ⟨-, -, rfl, -⟩ | ⟨-, -, ⟨nnn, rfl⟩, -⟩ | ⟨-, -, ⟨x, rfl⟩, -⟩ |
      ⟨-, -, ⟨x, y, n, rfl, -⟩ | ⟨x, rfl, -⟩ | ⟨x, rfl | rfl, -⟩⟩ := hf <;>
      exact ⟨rfl, rfl, rfl, rfl, rfl⟩

/-- Settles O18: the writers of PC by the value each of them writes, a skip by its condition. -/
theorem programCounterWriters : Obligations.ProgramCounterWriters := by
  intro i s t h
  obtain ⟨-, rfl⟩ | ⟨k, ea, -, rfl⟩ := exec_next_cases h
  · refine ⟨fun hne => absurd rfl hne, ?_⟩
    rintro -
    have skip (c : Bool) : (if c then s.pc + 2 else s.pc).toNat = s.pc.toNat ∨
        (if c then s.pc + 2 else s.pc).toNat = (s.pc.toNat + 2) % 65536 := by
      cases c
      · exact .inl rfl
      · exact .inr rfl
    cases i
    case jp nnn => exact zextAddr_toNat nnn
    case call nnn => exact zextAddr_toNat nnn
    case ret => exact Vector.getElem?_eq_getElem _
    case jpV0 nnn => simp [State.completed]
    case seImm | sneImm | seReg | sneReg | skp | sknp => exact skip _
    all_goals rfl
  · exact ⟨fun _ => rfl, fun ho => by cases ho⟩

/-! ## The display and the wait for a key -/

/-- Settles O20: an error writes nothing (R208), and a completed instruction by its frame. -/
theorem displayAndWaitWriters : Obligations.DisplayAndWaitWriters := by
  intro i s t h
  obtain ⟨-, rfl⟩ | ⟨k, ea, -, rfl⟩ := exec_next_cases h
  · exact ⟨s.completed_fb i, fun ⟨_, _, _, hi⟩ _ => hi ▸ rfl, s.completed_redraw i, s.completed_await_kx i⟩
  · exact ⟨fun _ _ => rfl, fun _ ho => absurd ho (by simp [State.failed]), fun _ => rfl, fun _ => ⟨rfl, rfl⟩⟩

end Sys2Proof.Machine

/-! ## The invariant: construction meets it, every step and every transaction keeps it (10_state.md R37) -/

namespace Sys2Proof.Machine

open Sys2Proof.Config

/-- What an awaiting step leaves, but for its return value (30_encoding.md R80, 44_keypad_timers_random.md R173). -/
def State.awaited (s : State) : State :=
  if s.keypad ≠ 0 then (s.setReg s.kx (BitVec.ofNat 8 (keySelect s.cfg.keySelect s.keypad).val)).stopAwait else s

theorem awaitKey_eq (s : State) : awaitKey s = .next (s.awaited.setOutcome .ok) := by
  unfold awaitKey State.awaited
  split <;> rfl

theorem Inv.awaited {s : State} (h : Inv s) : Inv s.awaited := by
  unfold State.awaited
  split
  · exact ⟨h.1, fun hf => absurd hf Bool.false_ne_true⟩
  · exact h

/-- A completed instruction keeps the invariant: `Fx0A`, the one that awaits a key, completes under WAIT alone. -/
theorem Inv.completed {s : State} {i : Instr} (h : Inv s) (hi : ¬ ∃ k ea, FailsWith s i k ea) : Inv (s.completed i) := by
  obtain ⟨hwf, hwait⟩ := h
  refine ⟨?_, ?_⟩ <;> rw [State.completed_cfg]
  · exact s.completed_mem_wf i hwf
  · by_cases hk : ∃ x, i = .ldVxK x
    · rintro -
      cases hm : s.cfg.fx0aMode with
      | wait => rfl
      | unimplemented => exact absurd ⟨_, _, .inr (.inr (.inl ⟨rfl, rfl, hk, hm⟩))⟩ hi
    · rw [(s.completed_await_kx i (not_exists.1 hk)).1]
      exact hwait

theorem Inv.exec {s t : State} {i : Instr} (h : Inv s) (he : exec i s = .next t) : Inv t := by
  obtain ⟨hi, rfl⟩ | ⟨k, ea, -, rfl⟩ := exec_next_cases he
  · exact h.completed hi
  · exact h

/-- A step keeps the invariant, in each of the four things a step can be (30_encoding.md R80). -/
theorem Inv.step {s t : State} (h : Inv s) (hs : step s = .next t) : Inv t := by
  obtain ⟨_, e⟩ | ⟨_, ea, _, e⟩ | ⟨_, w, r, _, _, e⟩ | ⟨_, w, i, _, _, e⟩ := step_cases s <;> rw [e] at hs
  · rw [awaitKey_eq] at hs
    cases hs
    exact h.awaited
  · cases hs
    exact h
  · cases hs
    exact h
  · exact Inv.exec (s := s.advancePc) h hs

/-- Settles O22: `Inv.step`. -/
theorem stepKeepsInvariant : Obligations.StepKeepsInvariant := fun _ _ => Inv.step

theorem inv_construct (cfg : Params) : Inv (State.construct cfg) :=
  ⟨Memory.nil_wf _, fun hf => absurd hf Bool.false_ne_true⟩

/-- Settles O24: memory is the empty list, and no key is awaited. -/
theorem constructedStateMeetsInvariant : Obligations.ConstructedStateMeetsInvariant := inv_construct

theorem Inv.load {s : State} (h : Inv s) (image : List Byte) : Inv (s.load image).1 := by
  unfold State.load
  split
  · rw [State.putBytes_eq]
    exact ⟨s.putBytes_wf _ _ h.1, h.2⟩
  · exact h

theorem Inv.setKey {s : State} (h : Inv s) (k : Nat) (b : Bool) : Inv (s.setKey k b).1 := by
  unfold State.setKey
  split <;> exact h

/-- Every row of 60_exceptions.md R222 keeps the invariant. -/
theorem Inv.transact {s : State} {p : State × Response} {tr : Transaction} (h : Inv s)
    (ht : transact tr s = .next p) : Inv p.1 := by
  cases tr
  case step =>
    obtain ⟨u, hu⟩ := step_exists_next s
    simp only [Machine.transact, hu] at ht
    cases ht
    exact h.step hu
  case construct => cases ht; exact inv_construct s.cfg
  case load image => cases ht; exact h.load image
  case keyDown k => cases ht; exact h.setKey k true
  case keyUp k => cases ht; exact h.setKey k false
  -- The six others leave memory, the parameters and AWAIT alone.
  all_goals cases ht; exact h

/-- Settles O23: by induction on the history, one transaction at a time. -/
theorem historiesKeepInvariant : Obligations.HistoriesKeepInvariant := by
  intro ts
  induction ts with
  | nil => intro s t h ht; cases ht; exact h
  | cons tr ts ih =>
    intro s t h ht
    rw [runTransactions] at ht
    split at ht
    next s' r hs' => exact ih s' t (h.transact hs') ht
    · cases ht
    · cases ht

/-! ## Reset values (10_state.md R35, 70_reset_and_hazards.md R230) -/

/-- Memory that names no address reads as the glyph table below 80 and as zero above. -/
theorem byteAt_of_mem_nil {s : State} (h : s.mem = []) {a : Nat} (ha : a < 4096) :
    s.byteAt a = if a < 80 then s.cfg.font.byte a else 0 := by
  simp [State.byteAt, h, Memory.read, Memory.unlisted, cellOf_of_le (Nat.le_of_lt_succ ha), fontBase, fontBytes]

/-- Whatever the random source holds, a construction sets every element of the core. -/
theorem hasResetValues_reconstruct (s : State) : HasResetValues s.reconstruct where
  font j hj := (byteAt_of_mem_nil rfl (by omega)).trans (if_pos hj)
  glyph0 := ⟨rfl, rfl, rfl, rfl, rfl⟩
  zeroed a ha ha' := (byteAt_of_mem_nil rfl ha').trans (if_neg (by omega))
  v r := Vector.getElem_replicate _
  i := rfl
  pc := rfl
  sp := rfl
  stack j hj := by simp [State.reconstruct, State.construct, hj]
  dt := rfl
  st := rfl
  keypad := rfl
  fb := Framebuffer.pixel_clear
  redraw := rfl
  await := rfl
  kx := rfl

theorem hasResetValues_construct (cfg : Params) : HasResetValues (State.construct cfg) :=
  hasResetValues_reconstruct (State.construct cfg)

/-- Settles O25: construction and the construct transaction, which differ in the random source alone. -/
theorem constructionSetsResetValues : Obligations.ConstructionSetsResetValues :=
  ⟨fun cfg => ⟨hasResetValues_construct cfg, rfl⟩, hasResetValues_construct _,
    fun s => ⟨s.reconstruct, rfl, hasResetValues_reconstruct s, rfl⟩⟩

/-! ## What no instruction observes -/

/-- `R` relates states that agree on everything a step reads before the instruction runs, and is kept by each of the
parts a step is made of. -/
structure Unobserved (R : State → State → Prop) : Prop where
  await {s s' : State} : R s s' → s'.await = s.await
  fetch {s s' : State} : R s s' → s'.fetch = s.fetch
  pc {s s' : State} : R s s' → s'.pc = s.pc
  failsWith {s s' : State} (i : Instr) (k : ErrorKind) (ea : Option (BitVec 17)) :
    R s s' → (FailsWith s' i k ea ↔ FailsWith s i k ea)
  setOutcome {s s' : State} (o : StepOutcome) : R s s' → R (s.setOutcome o) (s'.setOutcome o)
  advancePc {s s' : State} : R s s' → R s.advancePc s'.advancePc
  awaited {s s' : State} : R s s' → R s.awaited s'.awaited
  completed {s s' : State} {i : Instr} : R s s' → (¬ ∃ k ea, FailsWith s i k ea) → R (s.completed i) (s'.completed i)

section
variable {R : State → State → Prop} (hR : Unobserved R)
include hR

theorem Unobserved.exec {s s' t : State} {i : Instr} (h : R s s') (he : exec i s = .next t) :
    ∃ u, exec i s' = .next u ∧ R t u := by
  obtain ⟨hi, rfl⟩ | ⟨k, ea, hf, rfl⟩ := exec_next_cases he
  · refine ⟨_, exec_of_completes ?_, hR.setOutcome _ (hR.completed h hi)⟩
    rintro ⟨k, ea, hf⟩
    exact hi ⟨k, ea, (hR.failsWith i k ea h).1 hf⟩
  · refine ⟨_, exec_of_failsWith ((hR.failsWith i k ea h).2 hf), ?_⟩
    rw [State.failed, State.failed, hR.pc h]
    exact hR.setOutcome _ h

/-- Two states related by `R` step to states related by `R`, in each of the four things a step can be. -/
theorem Unobserved.step {s s' t : State} (h : R s s') (hs : step s = .next t) : ∃ u, step s' = .next u ∧ R t u := by
  obtain ⟨ha, e⟩ | ⟨ha, ea, hf, e⟩ | ⟨ha, w, r, hf, hd, e⟩ | ⟨ha, w, i, hf, hd, e⟩ := step_cases s <;>
    rw [e] at hs <;> rw [← hR.await h] at ha
  · rw [awaitKey_eq] at hs
    cases hs
    exact ⟨_, (step_of_await s' ha).trans (awaitKey_eq s'), hR.setOutcome _ (hR.awaited h)⟩
  · rw [← hR.fetch h] at hf
    cases hs
    rw [← hR.pc h]
    exact ⟨_, step_of_fetch_error s' ea ha hf, hR.setOutcome _ h⟩
  · rw [← hR.fetch h] at hf
    cases hs
    rw [← hR.pc h]
    exact ⟨_, step_of_invalid s' w r ha hf hd, hR.setOutcome _ (hR.advancePc h)⟩
  · rw [← hR.fetch h] at hf
    rw [step_of_decoded s' w i ha hf hd]
    exact hR.exec (hR.advancePc h) hs

end

/-! ### ST and REDRAW (10_state.md R27, 60_exceptions.md R217) -/

/-- The second state is the first but for ST and REDRAW. -/
def SameButSoundRedraw (s s' : State) : Prop := ∃ b f, s' = { s with st := b, redraw := f }

theorem SameButSoundRedraw.completed {s s' : State} (h : SameButSoundRedraw s s') (i : Instr) :
    SameButSoundRedraw (s.completed i) (s'.completed i) := by
  obtain ⟨b, f, rfl⟩ := h
  cases i
  case ldSTVx x => exact ⟨s.reg x, f, rfl⟩
  case drw x y n => exact ⟨b, true, rfl⟩
  all_goals exact ⟨b, f, rfl⟩

theorem unobserved_sameButSoundRedraw : Unobserved SameButSoundRedraw where
  await := by rintro s _ ⟨b, f, rfl⟩; rfl
  fetch := by rintro s _ ⟨b, f, rfl⟩; rfl
  pc := by rintro s _ ⟨b, f, rfl⟩; rfl
  failsWith i k ea := by rintro ⟨b, f, rfl⟩; rfl
  setOutcome o := by rintro ⟨b, f, rfl⟩; exact ⟨b, f, rfl⟩
  advancePc := by rintro s _ ⟨b, f, rfl⟩; exact ⟨b, f, rfl⟩
  awaited := by
    rintro s _ ⟨b, f, rfl⟩
    refine ⟨b, f, ?_⟩
    unfold State.awaited
    split <;> rfl
  completed h _ := h.completed _

/-- Settles O59: no part of a step reads ST or REDRAW. -/
theorem soundTimerAndRedrawUnobserved : Obligations.SoundTimerAndRedrawUnobserved := by
  intro s t b f hs
  obtain ⟨_, hu, b', f', rfl⟩ := unobserved_sameButSoundRedraw.step ⟨b, f, rfl⟩ hs
  exact ⟨_, hu, rfl⟩

/-! ### Stack slots above the stack pointer (10_state.md R24, R25) -/

/-- The second state is the first but for stack slots that are not occupied. -/
def SameButStaleSlots (s s' : State) : Prop :=
  ∃ stack, s' = { s with stack := stack } ∧ ∀ j < s.sp.val, stack[j]? = s.stack[j]?

/-- A pushed slot is the same on both stacks, so they agree one slot further. -/
theorem agree_setIfInBounds {a b : Vector Word 16} {n : Nat} (h : ∀ j < n, a[j]? = b[j]?) (w : Word) :
    ∀ j < n + 1, (a.setIfInBounds n w)[j]? = (b.setIfInBounds n w)[j]? := by
  intro j hj
  rw [Vector.getElem?_setIfInBounds, Vector.getElem?_setIfInBounds]
  split
  · rfl
  · exact h j (by omega)

theorem SameButStaleSlots.completed {s s' : State} {i : Instr} (h : SameButStaleSlots s s')
    (hi : ¬ ∃ k ea, FailsWith s i k ea) : SameButStaleSlots (s.completed i) (s'.completed i) := by
  obtain ⟨stack, rfl, hj⟩ := h
  cases i
  case ret =>
    have hsp : s.sp.val ≠ 0 := fun h0 => hi ⟨_, _, .inl ⟨rfl, rfl, rfl, h0⟩⟩
    have top := hj (s.sp.val - 1) (by omega)
    rw [Vector.getElem?_eq_getElem (by omega), Vector.getElem?_eq_getElem (by omega), Option.some_inj] at top
    refine ⟨stack, ?_, fun j hlt => hj j (hlt.trans_le (Nat.sub_le _ _))⟩
    simp only [State.completed, top]
  case call nnn =>
    exact ⟨_, rfl, fun j hlt => agree_setIfInBounds hj s.pc j (lt_of_lt_of_le hlt (Nat.min_le_left _ _))⟩
  all_goals exact ⟨stack, rfl, hj⟩

theorem unobserved_sameButStaleSlots : Unobserved SameButStaleSlots where
  await := by rintro s _ ⟨stack, rfl, -⟩; rfl
  fetch := by rintro s _ ⟨stack, rfl, -⟩; rfl
  pc := by rintro s _ ⟨stack, rfl, -⟩; rfl
  failsWith i k ea := by rintro ⟨stack, rfl, -⟩; rfl
  setOutcome o := by rintro ⟨stack, rfl, hj⟩; exact ⟨stack, rfl, hj⟩
  advancePc := by rintro s _ ⟨stack, rfl, hj⟩; exact ⟨stack, rfl, hj⟩
  awaited := by
    rintro s _ ⟨stack, rfl, hj⟩
    unfold State.awaited
    split <;> exact ⟨stack, rfl, hj⟩
  completed h hi := h.completed hi

/-- Settles O60: RET reads the slot below the stack pointer, which is occupied, and CALL overwrites the one at it. -/
theorem staleStackSlotsUnobserved : Obligations.StaleStackSlotsUnobserved := by
  intro s t stack hj hs
  obtain ⟨_, hu, stack', rfl, hj'⟩ := unobserved_sameButStaleSlots.step ⟨stack, rfl, hj⟩ hs
  exact ⟨_, hu, rfl, hj'⟩

end Sys2Proof.Machine

/-! ## FAULT only adds errors: the step under MASK (20_memory.md R53, R66) -/

namespace Sys2Proof.Machine

open Sys2Proof.Config

/-- The same machine with `ADDR_POLICY = MASK` (00_scope.md R7). -/
def State.masked (s : State) : State := { s with cfg := { s.cfg with addrPolicy := .mask } }

section
variable (s : State)

theorem State.inRange_masked (base len : Nat) : InRange s.masked base len := .inl rfl

/-- A word that is fetched is the same under MASK: the policy only decides whether there is one. -/
theorem State.fetch_masked_of_ok {w : Word} (h : s.fetch = .ok w) : s.masked.fetch = .ok w := by
  have hr : InRange s s.pc.toNat 2 := by
    by_contra hn
    rw [fetch_of_not_inRange s hn] at h
    cases h
  rw [fetch_of_inRange s hr] at h
  rw [fetch_of_inRange s.masked (s.inRange_masked _ _)]
  exact h

theorem State.awaited_masked : s.masked.awaited = s.awaited.masked := by
  rw [State.awaited, State.awaited, apply_ite State.masked]
  rfl

theorem State.completed_masked (i : Instr) : s.masked.completed i = (s.completed i).masked := by cases i <;> rfl

/-- MASK takes away AddressOutOfRange and no other error (R53). -/
theorem failsWith_masked_iff (i : Instr) (k : ErrorKind) (ea : Option (BitVec 17)) :
    FailsWith s.masked i k ea ↔ FailsWith s i k ea ∧ k ≠ .addressOutOfRange := by
  constructor
  · rintro (⟨rfl, h⟩ | ⟨rfl, h⟩ | ⟨rfl, h⟩ | ⟨-, -, ⟨_, _, _, -, h⟩ | ⟨_, -, h⟩ | ⟨_, -, h⟩⟩)
    · exact ⟨.inl ⟨rfl, h⟩, by decide⟩
    · exact ⟨.inr (.inl ⟨rfl, h⟩), by decide⟩
    · exact ⟨.inr (.inr (.inl ⟨rfl, h⟩)), by decide⟩
    all_goals exact absurd (s.inRange_masked _ _) h
  · rintro ⟨h | h | h | ⟨hk, -⟩, hne⟩
    · exact .inl h
    · exact .inr (.inl h)
    · exact .inr (.inr (.inl h))
    · exact absurd hk hne

end

/-- An instruction that ends without AddressOutOfRange does the same under MASK. -/
theorem exec_masked {i : Instr} {s t : State} (h : exec i s = .next t)
    (hr : ∀ e, t.outcome = .error e → e.kind ≠ .addressOutOfRange) : exec i s.masked = .next t.masked := by
  obtain ⟨hc, rfl⟩ | ⟨k, ea, hf, rfl⟩ := exec_next_cases h
  · have hc' : ¬ ∃ k ea, FailsWith s.masked i k ea := fun ⟨k, ea, hf⟩ =>
      hc ⟨k, ea, ((failsWith_masked_iff s i k ea).1 hf).1⟩
    rw [exec_of_completes hc', State.completed_masked]
    rfl
  · exact exec_of_failsWith ((failsWith_masked_iff s i k ea).2 ⟨hf, hr _ rfl⟩)

/-- A step that ends without AddressOutOfRange does the same under MASK, in each of the four things a step can be
(30_encoding.md R80). -/
theorem step_masked {s t : State} (hs : step s = .next t)
    (hr : ∀ e, t.outcome = .error e → e.kind ≠ .addressOutOfRange) : step s.masked = .next t.masked := by
  obtain ⟨ha, e⟩ | ⟨ha, ea, hf, e⟩ | ⟨ha, w, r, hf, hd, e⟩ | ⟨ha, w, i, hf, hd, e⟩ := step_cases s <;> rw [e] at hs
  · rw [awaitKey_eq] at hs
    cases hs
    rw [step_of_await s.masked ha, awaitKey_eq, State.awaited_masked]
    rfl
  · cases hs
    exact absurd rfl (hr _ rfl)
  · cases hs
    exact step_of_invalid s.masked w r ha (s.fetch_masked_of_ok hf) hd
  · rw [step_of_decoded s.masked w i ha (s.fetch_masked_of_ok hf) hd]
    exact exec_masked hs hr

/-- Settles O14: every part of a step that is not AddressOutOfRange commutes with `State.masked`. -/
theorem maskAgreesWithFaultInRange : Obligations.MaskAgreesWithFaultInRange := fun _ _ _ => step_masked

end Sys2Proof.Machine

/-! ## Memory and the stack: who writes them, and what a write changes (20_memory.md, 10_state.md R24, R25) -/

namespace Sys2Proof.Machine

open Sys2Proof.Config

section
variable (s : State) (i : Instr)

theorem State.completed_mem (hi : ∀ x, i ≠ .ldB x ∧ i ≠ .storeRegs x) : (s.completed i).mem = s.mem := by
  cases i
  case ldB x => exact absurd rfl (hi x).1
  case storeRegs x => exact absurd rfl (hi x).2
  all_goals rfl

theorem State.completed_stack (hcall : ∀ nnn, i ≠ .call nnn) : (s.completed i).stack = s.stack := by
  cases i
  case call nnn => exact absurd rfl (hcall nnn)
  all_goals rfl

theorem State.completed_sp (hcall : ∀ nnn, i ≠ .call nnn) (hret : i ≠ .ret) : (s.completed i).sp = s.sp := by
  cases i
  case call nnn => exact absurd rfl (hcall nnn)
  case ret => exact absurd rfl hret
  all_goals rfl

/-- CALL, the one writer of the stack, writes the slot at the stack pointer alone (41_control_flow.md R113). -/
theorem State.completed_stack_of_ne_sp {j : Nat} (hj : j ≠ s.sp.val) : (s.completed i).stack[j]? = s.stack[j]? := by
  by_cases hcall : ∃ nnn, i = .call nnn
  · obtain ⟨nnn, rfl⟩ := hcall
    exact Vector.getElem?_setIfInBounds_ne hj.symm
  · rw [s.completed_stack i (not_exists.1 hcall)]

end

theorem State.byteAt_congr {s t : State} (hmem : t.mem = s.mem) (hcfg : t.cfg = s.cfg) (a : Nat) :
    t.byteAt a = s.byteAt a := by
  rw [State.byteAt, State.byteAt, hmem, hcfg]

/-- Settles O19: an error writes nothing (R208), and a completed instruction by its frame. -/
theorem memoryAndStackWriters : Obligations.MemoryAndStackWriters := by
  intro i s t h
  obtain ⟨-, rfl⟩ | ⟨k, ea, -, rfl⟩ := exec_next_cases h
  · refine ⟨fun hi => ?_, s.completed_stack i, s.completed_sp i, fun j => s.completed_stack_of_ne_sp i⟩
    have hmem := s.completed_mem i hi
    exact ⟨hmem, State.byteAt_congr hmem (s.completed_cfg i)⟩
  · exact ⟨fun _ => ⟨rfl, fun _ => rfl⟩, fun _ => rfl, fun _ _ => rfl, fun _ _ => rfl⟩

/-- A stored block of registers reads back register by register (43_index_memory.md R154). -/
theorem State.byteAt_putBytes_regsUpTo (s : State) (base : Nat) (x k : Reg) (hk : k.val ≤ x.val)
    (h : Memory.wf s.cfg.font s.mem) : (s.putBytes base (s.regsUpTo x)).byteAt (base + k.val) = s.reg k := by
  have hlen := s.regsUpTo_length x
  have hsize : (s.regsUpTo x).length ≤ memSize := by
    rw [hlen]
    exact x.isLt.trans (by decide)
  rw [s.byteAt_putBytes base k.val _ (by omega) hsize h, s.regsUpTo_getElem]

/-- After bytes are stored the next fetch reads memory as they left it (R63). -/
theorem State.fetch_putBytes (s : State) (base : Nat) (bs : List Byte) (h : InRange s s.pc.toNat 2) :
    (s.putBytes base bs).fetch = .ok (wordOfBytes ((s.putBytes base bs).byteAt s.pc.toNat)
      ((s.putBytes base bs).byteAt (s.pc.toNat + 1))) := by
  have hpc : (s.putBytes base bs).pc = s.pc := by rw [State.putBytes_eq]
  have hr : InRange (s.putBytes base bs) (s.putBytes base bs).pc.toNat 2 := by
    rw [InRange, State.putBytes_cfg, hpc]
    exact h
  rw [fetch_of_inRange _ hr, hpc]

/-- Settles O48: the fetch reads the first two bytes of the stored block. -/
theorem storeIsSeenByNextFetch : Obligations.StoreIsSeenByNextFetch := by
  intro s t x ⟨hwf, _⟩ hstore hfetch hx hi ht
  obtain ⟨-, e⟩ | ⟨hn, -⟩ := exec_storeRegs_cases s x
  · rw [e] at ht
    cases ht
    have hi0 := s.byteAt_putBytes_regsUpTo s.i.toNat x 0 (Nat.zero_le _) hwf
    have hi1 := s.byteAt_putBytes_regsUpTo s.i.toNat x 1 hx hwf
    have hf := s.fetch_putBytes s.i.toNat (s.regsUpTo x) hfetch
    rw [← hi] at hf
    exact hf.trans (congrArg Except.ok (congrArg₂ wordOfBytes hi0 hi1))
  · exact absurd hstore hn

/-- Settles O49: an access names its cell alone, so both clauses are laws of one write. -/
theorem writeChangesExactlyOneCell : Obligations.WriteChangesExactlyOneCell := by
  intro s a c b ⟨hwf, _⟩
  refine ⟨fun hc => ?_, s.byteAt_putByte_of_ne a c b⟩
  calc (s.putByte a b).byteAt c
    _ = (s.putByte a b).byteAt a := by rw [State.byteAt, State.byteAt, hc]
    _ = b := s.byteAt_putByte_self a b hwf

/-! ### The canonical form of memory (log 8) -/

theorem Memory.lookup_eq_some_iff {f : Font} {m : Memory} (h : Memory.wf f m) (a : Nat) (v : Byte) :
    Memory.lookup m a = some v ↔ (a, v) ∈ m := by
  induction m with
  | nil => simp
  | cons p m ih =>
    obtain ⟨b, w⟩ := p
    rw [Memory.lookup_cons, List.mem_cons]
    split
    next hab =>
      subst hab
      have hm : (a, v) ∉ m := fun hmem => absurd (Memory.wf_head_lt h _ hmem) (lt_irrefl a)
      simp [hm, eq_comm]
    next hab => simp [hab, ih (Memory.wf_tail h)]

/-- What a canonical list holds is fixed by what it reads as: the cells that differ from their unlisted contents. -/
theorem Memory.mem_iff_read {f : Font} {m : Memory} (h : Memory.wf f m) (a : Nat) (v : Byte) :
    (a, v) ∈ m ↔ Memory.read f m a = v ∧ v ≠ Memory.unlisted f a := by
  have hv : (a, v) ∈ m → v ≠ Memory.unlisted f a := fun hm => (h.2 _ hm).2
  rw [← Memory.lookup_eq_some_iff h] at hv ⊢
  rw [Memory.read]
  cases hl : Memory.lookup m a with
  | none => simp [eq_comm]
  | some w =>
    simp only [hl, Option.some_inj] at hv
    simpa using hv

/-- Settles O50: the two lists have the same entries, and both are strictly rising. -/
theorem canonicalMemoriesThatReadAlikeAreEqual : Obligations.CanonicalMemoriesThatReadAlikeAreEqual := by
  intro f m m' h h' hread
  have : Std.Irrefl fun p q : Host.Cell => p.1 < q.1 := ⟨fun p => lt_irrefl p.1⟩
  have : Std.Antisymm fun p q : Host.Cell => p.1 < q.1 := ⟨fun p q hpq hqp => absurd hqp hpq.asymm⟩
  refine h.1.eq_of_mem_iff h'.1 fun (a, v) => ?_
  rw [Memory.mem_iff_read h, Memory.mem_iff_read h', hread]

/-! ### The host's load (20_memory.md R65) -/

theorem State.load_of_fits (s : State) (image : List Byte) (h : image.length ≤ 3584) :
    s.load image = (s.putBytes 0x200 image, .done) := if_pos h

theorem State.load_of_too_long (s : State) (image : List Byte) (h : 3584 < image.length) :
    s.load image = (s, .refused) := if_neg (Nat.not_le_of_lt h)

/-- The bytes of an image that fits stand in the cells 0x200 to 0xFFF, so a cell below or above the image is none of them. -/
theorem cellOf_ne_of_outside_image {a k len : Nat} (hlen : len ≤ 3584) (hk : k < len) (ha : a < 4096)
    (hout : a < 0x200 ∨ 0x200 + len ≤ a) : cellOf a ≠ cellOf (0x200 + k) := by
  rw [cellOf_of_le (by omega), cellOf_of_le (by omega)]
  omega

/-- Settles O54: the load is one transfer of the image to 0x200, or the refusal. -/
theorem loadCopiesImageVerbatim : Obligations.LoadCopiesImageVerbatim := by
  intro s image ⟨hwf, _⟩
  refine ⟨fun hlen => ⟨s.putBytes 0x200 image, congrArg _ (s.load_of_fits image hlen), fun j hj => ?_,
    fun a ha hout => ?_, s.putBytes_eq 0x200 image⟩, fun hlen => congrArg _ (s.load_of_too_long image hlen)⟩
  · exact s.byteAt_putBytes 0x200 j image hj (hlen.trans (by decide)) hwf
  · exact s.byteAt_putBytes_of_ne 0x200 a image fun k hk => cellOf_ne_of_outside_image hlen hk ha hout

end Sys2Proof.Machine

/-! ## The encoding: decoder, encoder and the table of masks and matches agree (30_encoding.md R82 to R87) -/

namespace Sys2Proof

/-! ### Every well-formed instruction decodes back (R82, R83, R85) -/

theorem decodeWord_encode : ∀ i : Instr, i.wf = true → decodeWord (encode i) = .ok i
  | .cls => Laws.RoundTrip.cls
  | .ret => Laws.RoundTrip.ret
  | .jp nnn => Laws.RoundTrip.jp nnn
  | .call nnn => Laws.RoundTrip.call nnn
  | .seImm x kk => Laws.RoundTrip.seImm x kk
  | .sneImm x kk => Laws.RoundTrip.sneImm x kk
  | .seReg x y => Laws.RoundTrip.seReg x y
  | .ldImm x kk => Laws.RoundTrip.ldImm x kk
  | .addImm x kk => Laws.RoundTrip.addImm x kk
  | .ldReg x y => Laws.RoundTrip.ldReg x y
  | .orReg x y => Laws.RoundTrip.orReg x y
  | .andReg x y => Laws.RoundTrip.andReg x y
  | .xorReg x y => Laws.RoundTrip.xorReg x y
  | .addReg x y => Laws.RoundTrip.addReg x y
  | .subReg x y => Laws.RoundTrip.subReg x y
  | .shr x y => Laws.RoundTrip.shr x y
  | .subn x y => Laws.RoundTrip.subn x y
  | .shl x y => Laws.RoundTrip.shl x y
  | .sneReg x y => Laws.RoundTrip.sneReg x y
  | .ldI nnn => Laws.RoundTrip.ldI nnn
  | .jpV0 nnn => Laws.RoundTrip.jpV0 nnn
  | .rnd x kk => Laws.RoundTrip.rnd x kk
  | .drw x y n => Laws.RoundTrip.drw x y n
  | .skp x => Laws.RoundTrip.skp x
  | .sknp x => Laws.RoundTrip.sknp x
  | .ldVxDT x => Laws.RoundTrip.ldVxDT x
  | .ldVxK x => Laws.RoundTrip.ldVxK x
  | .ldDTVx x => Laws.RoundTrip.ldDTVx x
  | .ldSTVx x => Laws.RoundTrip.ldSTVx x
  | .addI x => Laws.RoundTrip.addI x
  | .ldF x => Laws.RoundTrip.ldF x
  | .ldB x => Laws.RoundTrip.ldB x
  | .storeRegs x => Laws.RoundTrip.storeRegs x
  | .loadRegs x => Laws.RoundTrip.loadRegs x

/-- The decoder on the bytes of a word is the decoder on the word (R82, 20_memory.md R54). -/
theorem decode_encodeBytes_append (i : Instr) (rest : List Byte) :
    decode (encodeBytes i ++ rest) = (decodeWord (encode i)).map (·, rest) := by
  rw [encodeBytes, List.cons_append, List.cons_append, List.nil_append, decode, wordOfBytes_hiByte_loByte]

/-- Settles O1: the two bytes make up the word again, and the word decodes back, constructor by constructor. -/
theorem decodeInvertsEncode : Obligations.DecodeInvertsEncode := by
  intro i rest hwf
  rw [decode_encodeBytes_append, decodeWord_encode i hwf]
  rfl

/-! ### A word in each format, from the fields the format has (R82, R83) -/

section
variable {op : Nat} (w : Word)

theorem encNNN_fields_eq_iff (hop : op < 16) : encNNN op (nnnField w) = w ↔ opField w = op := by
  constructor
  · intro h
    rw [← h, opField_encNNN _ _ hop]
  · rintro rfl
    exact (word_eq_nnn w).symm

theorem encXKK_fields_eq_iff (hop : op < 16) : encXKK op (xField w) (kkImm w) = w ↔ opField w = op := by
  constructor
  · intro h
    rw [← h, opField_encXKK _ _ _ hop]
  · rintro rfl
    exact (word_eq_xkk w).symm

theorem encXYN_fields_eq_iff {n : Nat} (hop : op < 16) (hn : n < 16) :
    encXYN op (xField w) (yField w) n = w ↔ opField w = op ∧ nField w = n := by
  constructor
  · intro h
    rw [← h, opField_encXYN _ _ _ _ hop hn, nField_encXYN _ _ _ _ hn]
    exact ⟨rfl, rfl⟩
  · rintro ⟨rfl, rfl⟩
    exact (word_eq_fields w).symm

theorem encX_fields_eq_iff {ss : Nat} (hop : op < 16) (hss : ss < 256) :
    encX op (xField w) ss = w ↔ opField w = op ∧ kkField w = ss := by
  constructor
  · intro h
    rw [← h, opField_encX _ _ _ hop hss, kkField_encX _ _ _ hss]
    exact ⟨rfl, rfl⟩
  · rintro ⟨rfl, rfl⟩
    exact (word_eq_x w).symm

/-! ### What a row of the table tests (R85) -/

/-- Three of the table's four masks keep the leading nibble and the lowest 0, 4 or 8 bits of the word. -/
theorem toNat_and_opMask {k : Nat} (hk : k ≤ 12) :
    (w &&& BitVec.ofNat 16 (2 ^ 12 * 15 + (2 ^ k - 1))).toNat = 2 ^ 12 * opField w + w.toNat % 2 ^ k := by
  have hpow : 2 ^ k ≤ 2 ^ 12 := Nat.pow_le_pow_right (by decide) hk
  have hmask : (BitVec.ofNat 16 (2 ^ 12 * 15 + (2 ^ k - 1))).toNat = 2 ^ 12 * 15 + (2 ^ k - 1) :=
    Nat.mod_eq_of_lt (by omega)
  have hlow : 2 ^ k - 1 < 2 ^ 12 := by have := Nat.two_pow_pos k; omega
  rw [BitVec.toNat_and, hmask]
  calc w.toNat &&& (2 ^ 12 * 15 + (2 ^ k - 1))
    _ = 2 ^ 12 * ((w.toNat &&& (2 ^ 12 * 15 + (2 ^ k - 1))) / 2 ^ 12)
        + (w.toNat &&& (2 ^ 12 * 15 + (2 ^ k - 1))) % 2 ^ 12 := (Nat.div_add_mod _ _).symm
    _ = 2 ^ 12 * (w.toNat / 2 ^ 12 &&& 15) + (w.toNat % 2 ^ 12 &&& (2 ^ k - 1)) := by
      rw [Nat.and_div_two_pow, Nat.and_mod_two_pow, Nat.mul_add_div (by decide), Nat.mul_add_mod,
        Nat.div_eq_of_lt hlow, Nat.mod_eq_of_lt hlow, Nat.add_zero]
    _ = 2 ^ 12 * opField w + w.toNat % 2 ^ k := by
      rw [Nat.and_two_pow_sub_one_eq_mod _ 4, Nat.and_two_pow_sub_one_eq_mod,
        Nat.mod_mod_of_dvd _ (Nat.pow_dvd_pow 2 hk)]
      rfl

theorem rowMatches_opMask_iff {k low : Nat} (hk : k ≤ 12) (hop : op < 16) (hlow : low < 2 ^ k) :
    rowMatches w (BitVec.ofNat 16 (2 ^ 12 * 15 + (2 ^ k - 1)), BitVec.ofNat 16 (2 ^ 12 * op + low)) = true ↔
      opField w = op ∧ w.toNat % 2 ^ k = low := by
  have hpow : 2 ^ k ≤ 2 ^ 12 := Nat.pow_le_pow_right (by decide) hk
  have hmod : w.toNat % 2 ^ k < 2 ^ k := Nat.mod_lt _ (Nat.two_pow_pos k)
  have hmatch : (BitVec.ofNat 16 (2 ^ 12 * op + low)).toNat = 2 ^ 12 * op + low := Nat.mod_eq_of_lt (by omega)
  rw [rowMatches, beq_iff_eq, ← BitVec.toNat_inj, toNat_and_opMask w hk, hmatch]
  omega

/-- Mask 0xF000 tests the leading nibble. -/
theorem rowMatches_F000_iff (hop : op < 16) :
    rowMatches w (0xF000, BitVec.ofNat 16 (2 ^ 12 * op)) = true ↔ opField w = op :=
  (rowMatches_opMask_iff w (k := 0) (by decide) hop (by decide)).trans (and_iff_left (Nat.mod_one _))

/-- Mask 0xF00F tests the leading and the trailing nibble. -/
theorem rowMatches_F00F_iff {n : Nat} (hop : op < 16) (hn : n < 16) :
    rowMatches w (0xF00F, BitVec.ofNat 16 (2 ^ 12 * op + n)) = true ↔ opField w = op ∧ nField w = n := by
  rw [nField, slice, Nat.pow_zero, Nat.div_one]
  exact rowMatches_opMask_iff w (k := 4) (by decide) hop hn

/-- Mask 0xF0FF tests the leading nibble and the low byte. -/
theorem rowMatches_F0FF_iff {ss : Nat} (hop : op < 16) (hss : ss < 256) :
    rowMatches w (0xF0FF, BitVec.ofNat 16 (2 ^ 12 * op + ss)) = true ↔ opField w = op ∧ kkField w = ss := by
  rw [kkField, slice, Nat.pow_zero, Nat.div_one]
  exact rowMatches_opMask_iff w (k := 8) (by decide) hop hss

/-- Mask 0xFFFF tests the whole word. -/
theorem rowMatches_FFFF_iff (m : Word) : rowMatches w (0xFFFF, m) = true ↔ m = w := by
  rw [rowMatches, beq_iff_eq, show (0xFFFF : Word) = BitVec.allOnes 16 from rfl, BitVec.and_allOnes, eq_comm]

end

/-! ### The instruction of a row that a word is (R82, R85) -/

/-- The instruction of the same row of R85's table whose operands are the fields of the word. -/
def Instr.withFields (w : Word) : Instr → Instr
  | .cls => .cls
  | .ret => .ret
  | .jp _ => .jp (nnnField w)
  | .call _ => .call (nnnField w)
  | .seImm _ _ => .seImm (xField w) (kkImm w)
  | .sneImm _ _ => .sneImm (xField w) (kkImm w)
  | .seReg _ _ => .seReg (xField w) (yField w)
  | .ldImm _ _ => .ldImm (xField w) (kkImm w)
  | .addImm _ _ => .addImm (xField w) (kkImm w)
  | .ldReg _ _ => .ldReg (xField w) (yField w)
  | .orReg _ _ => .orReg (xField w) (yField w)
  | .andReg _ _ => .andReg (xField w) (yField w)
  | .xorReg _ _ => .xorReg (xField w) (yField w)
  | .addReg _ _ => .addReg (xField w) (yField w)
  | .subReg _ _ => .subReg (xField w) (yField w)
  | .shr _ _ => .shr (xField w) (yField w)
  | .subn _ _ => .subn (xField w) (yField w)
  | .shl _ _ => .shl (xField w) (yField w)
  | .sneReg _ _ => .sneReg (xField w) (yField w)
  | .ldI _ => .ldI (nnnField w)
  | .jpV0 _ => .jpV0 (nnnField w)
  | .rnd _ _ => .rnd (xField w) (kkImm w)
  | .drw _ _ _ => .drw (xField w) (yField w) (nField w)
  | .skp _ => .skp (xField w)
  | .sknp _ => .sknp (xField w)
  | .ldVxDT _ => .ldVxDT (xField w)
  | .ldVxK _ => .ldVxK (xField w)
  | .ldDTVx _ => .ldDTVx (xField w)
  | .ldSTVx _ => .ldSTVx (xField w)
  | .addI _ => .addI (xField w)
  | .ldF _ => .ldF (xField w)
  | .ldB _ => .ldB (xField w)
  | .storeRegs _ => .storeRegs (xField w)
  | .loadRegs _ => .loadRegs (xField w)

@[simp] theorem Instr.row_withFields (w : Word) (i : Instr) : (i.withFields w).row = i.row := by
  cases i <;> rfl

@[simp] theorem Instr.wf_withFields (w : Word) (i : Instr) : (i.withFields w).wf = true := by
  cases i
  case drw => exact decide_eq_true (nField_lt w)
  all_goals rfl

/-- A word is that of the row's instruction with the word's own fields exactly when the row matches it. -/
theorem encode_withFields_eq_iff (w : Word) (i : Instr) :
    encode (i.withFields w) = w ↔ rowMatches w i.row = true := by
  cases i
  case cls | ret => exact (rowMatches_FFFF_iff w _).symm
  case jp | call | ldI | jpV0 =>
    exact Iff.trans (encNNN_fields_eq_iff w (by decide)) (rowMatches_F000_iff w (by decide)).symm
  case seImm | sneImm | ldImm | addImm | rnd =>
    exact Iff.trans (encXKK_fields_eq_iff w (by decide)) (rowMatches_F000_iff w (by decide)).symm
  case drw =>
    have hn := and_iff_left (a := opField w = 0xD) (rfl : nField w = nField w)
    exact Iff.trans (encXYN_fields_eq_iff w (by decide) (nField_lt w))
      (hn.trans (rowMatches_F000_iff w (by decide)).symm)
  case seReg | ldReg | orReg | andReg | xorReg | addReg | subReg | shr | subn | shl | sneReg =>
    exact Iff.trans (encXYN_fields_eq_iff w (by decide) (by decide))
      (rowMatches_F00F_iff w (by decide) (by decide)).symm
  all_goals
    exact Iff.trans (encX_fields_eq_iff w (by decide) (by decide))
      (rowMatches_F0FF_iff w (by decide) (by decide)).symm

/-! ### What the decoder answers (R86) -/

section
variable {w : Word} {i : Instr}

theorem decodeFamily0_ok (hop : opField w = 0x0) (h : decodeFamily0 w = .ok i) :
    i.withFields w = i ∧ encode i = w := by
  unfold decodeFamily0 invalid at h
  have hw := word_eq_nnn w
  split at h <;> cases h
  all_goals next hnnn => exact ⟨rfl, by rw [hw, hop, nnnField, hnnn]; rfl⟩

theorem decodeFamily5_ok (hop : opField w = 0x5) (h : decodeFamily5 w = .ok i) :
    i.withFields w = i ∧ encode i = w := by
  unfold decodeFamily5 invalid at h
  split at h <;> cases h
  next hn => exact ⟨rfl, (encXYN_fields_eq_iff w (by decide) (by decide)).2 ⟨hop, hn⟩⟩

theorem decodeFamily8_ok (hop : opField w = 0x8) (h : decodeFamily8 w = .ok i) :
    i.withFields w = i ∧ encode i = w := by
  unfold decodeFamily8 invalid at h
  split at h <;> cases h
  all_goals next hn => exact ⟨rfl, (encXYN_fields_eq_iff w (by decide) (by decide)).2 ⟨hop, hn⟩⟩

theorem decodeFamily9_ok (hop : opField w = 0x9) (h : decodeFamily9 w = .ok i) :
    i.withFields w = i ∧ encode i = w := by
  unfold decodeFamily9 invalid at h
  split at h <;> cases h
  next hn => exact ⟨rfl, (encXYN_fields_eq_iff w (by decide) (by decide)).2 ⟨hop, hn⟩⟩

theorem decodeFamilyE_ok (hop : opField w = 0xE) (h : decodeFamilyE w = .ok i) :
    i.withFields w = i ∧ encode i = w := by
  unfold decodeFamilyE invalid at h
  split at h <;> cases h
  all_goals next hkk => exact ⟨rfl, (encX_fields_eq_iff w (by decide) (by decide)).2 ⟨hop, hkk⟩⟩

theorem decodeFamilyF_ok (hop : opField w = 0xF) (h : decodeFamilyF w = .ok i) :
    i.withFields w = i ∧ encode i = w := by
  unfold decodeFamilyF invalid at h
  split at h <;> cases h
  all_goals next hkk => exact ⟨rfl, (encX_fields_eq_iff w (by decide) (by decide)).2 ⟨hop, hkk⟩⟩

/-- The inversion of the decoder: the operands are the word's own fields, and the word is the instruction's. -/
theorem decodeWord_ok (h : decodeWord w = .ok i) : i.withFields w = i ∧ encode i = w := by
  unfold decodeWord at h
  split at h
  case h_1 hop => exact decodeFamily0_ok hop h
  case h_6 hop => exact decodeFamily5_ok hop h
  case h_9 hop => exact decodeFamily8_ok hop h
  case h_10 hop => exact decodeFamily9_ok hop h
  case h_15 hop => exact decodeFamilyE_ok hop h
  case h_16 hop => exact decodeFamilyF_ok hop h
  all_goals cases h
  case h_2 hop | h_3 hop | h_11 hop | h_12 hop => exact ⟨rfl, (encNNN_fields_eq_iff w (by decide)).2 hop⟩
  case h_14 hop => exact ⟨rfl, (encXYN_fields_eq_iff w (by decide) (nField_lt w)).2 ⟨hop, rfl⟩⟩
  all_goals next hop => exact ⟨rfl, (encXKK_fields_eq_iff w (by decide)).2 hop⟩

theorem decodeWord_of_rowMatches (h : rowMatches w i.row = true) : decodeWord w = .ok (i.withFields w) := by
  have hdec := decodeWord_encode (i.withFields w) (i.wf_withFields w)
  rwa [(encode_withFields_eq_iff w i).2 h] at hdec

theorem rowMatches_of_decodeWord (h : decodeWord w = .ok i) : rowMatches w i.row = true := by
  obtain ⟨hfields, henc⟩ := decodeWord_ok h
  rw [← encode_withFields_eq_iff, hfields, henc]

end

/-- Settles O2: the decoder's operands are the fields of the word, which fit. -/
theorem encodeInvertsDecode : Obligations.EncodeInvertsDecode := by
  intro w i h
  obtain ⟨hfields, henc⟩ := decodeWord_ok h
  exact ⟨hfields ▸ i.wf_withFields w, henc⟩

/-! ### The table of masks and matches (R85) -/

/-- One instruction of each row of R85's table, in the table's order. -/
def opcodeRowInstrs : List Instr :=
  [.cls, .ret, .jp 0, .call 0, .seImm 0 0, .sneImm 0 0, .seReg 0 0, .ldImm 0 0, .addImm 0 0, .ldReg 0 0, .orReg 0 0,
   .andReg 0 0, .xorReg 0 0, .addReg 0 0, .subReg 0 0, .shr 0 0, .subn 0 0, .shl 0 0, .sneReg 0 0, .ldI 0, .jpV0 0,
   .rnd 0 0, .drw 0 0 0, .skp 0, .sknp 0, .ldVxDT 0, .ldVxK 0, .ldDTVx 0, .ldSTVx 0, .addI 0, .ldF 0, .ldB 0,
   .storeRegs 0, .loadRegs 0]

theorem opcodeRows_eq_map : opcodeRows = opcodeRowInstrs.map Instr.row := rfl

theorem row_mem_opcodeRows (i : Instr) : i.row ∈ opcodeRows := by
  cases i <;> exact List.mem_of_elem_eq_true rfl

theorem exists_row_of_mem_opcodeRows {row : Word × Word} (h : row ∈ opcodeRows) : ∃ i : Instr, i.row = row := by
  rw [opcodeRows_eq_map] at h
  obtain ⟨i, -, hi⟩ := List.mem_map.1 h
  exact ⟨i, hi⟩

/-- A word a row matches decodes to an instruction of that row. -/
theorem exists_decodeWord_of_rowMatches {w : Word} {row : Word × Word} (hrow : row ∈ opcodeRows)
    (h : rowMatches w row = true) : ∃ i, decodeWord w = .ok i ∧ i.row = row := by
  obtain ⟨i, rfl⟩ := exists_row_of_mem_opcodeRows hrow
  exact ⟨i.withFields w, decodeWord_of_rowMatches h, i.row_withFields w⟩

/-- Settles O3: both rows that match a word are the row of the one instruction it decodes to. -/
theorem decoderFollowsMaskAndMatchTable : Obligations.DecoderFollowsMaskAndMatchTable := by
  refine ⟨fun w i h => ⟨row_mem_opcodeRows i, rowMatches_of_decodeWord h⟩,
    fun w row => exists_decodeWord_of_rowMatches, fun w p hp q hq hwp hwq => ?_⟩
  obtain ⟨i, hi, rfl⟩ := exists_decodeWord_of_rowMatches hp hwp
  obtain ⟨j, hj, rfl⟩ := exists_decodeWord_of_rowMatches hq hwq
  rw [hi] at hj
  cases hj
  rfl

/-! ### The invalid words (R87) -/

section
variable (w : Word)

theorem decodeFamily0_eq_invalid_iff :
    decodeFamily0 w = invalid w ↔ slice w 11 0 ≠ 0x0E0 ∧ slice w 11 0 ≠ 0x0EE := by
  unfold decodeFamily0 invalid
  split <;> simp_all

theorem decodeFamily5_eq_invalid_iff : decodeFamily5 w = invalid w ↔ nField w ≠ 0 := by
  unfold decodeFamily5 invalid
  split <;> simp_all

theorem decodeFamily8_eq_invalid_iff :
    decodeFamily8 w = invalid w ↔ nField w ∈ [0x8, 0x9, 0xA, 0xB, 0xC, 0xD, 0xF] := by
  have hn := nField_lt w
  unfold decodeFamily8 invalid
  split
  case h_10 =>
    simp only [List.mem_cons, List.not_mem_nil, true_iff, imp_false] at *
    omega
  all_goals simp [*]

theorem decodeFamily9_eq_invalid_iff : decodeFamily9 w = invalid w ↔ nField w ≠ 0 := by
  unfold decodeFamily9 invalid
  split <;> simp_all

theorem decodeFamilyE_eq_invalid_iff : decodeFamilyE w = invalid w ↔ kkField w ∉ [0x9E, 0xA1] := by
  unfold decodeFamilyE invalid
  split <;> simp_all

theorem decodeFamilyF_eq_invalid_iff :
    decodeFamilyF w = invalid w ↔ kkField w ∉ [0x07, 0x0A, 0x15, 0x18, 0x1E, 0x29, 0x33, 0x55, 0x65] := by
  unfold decodeFamilyF invalid
  split <;> simp_all

end

/-- Settles O4: six families have invalid words, and every word of the other ten decodes. -/
theorem invalidWordsByFamily : Obligations.InvalidWordsByFamily := by
  intro w
  change decodeWord w = invalid w ↔ _
  unfold decodeWord
  split
  case h_1 hop => simp [hop, decodeFamily0_eq_invalid_iff]
  case h_6 hop => simp [hop, decodeFamily5_eq_invalid_iff]
  case h_9 hop => simp [hop, decodeFamily8_eq_invalid_iff]
  case h_10 hop => simp [hop, decodeFamily9_eq_invalid_iff]
  case h_15 hop => simp [hop, decodeFamilyE_eq_invalid_iff]
  case h_16 hop => simp [hop, decodeFamilyF_eq_invalid_iff]
  case h_17 =>
    have hop := opField_lt w
    exfalso
    interval_cases opField w <;> contradiction
  all_goals next hop => simp [hop, invalid]

/-- Settles O5: the seven words are closed, and the decoder computes on them. -/
theorem sampleWordsDecode : Obligations.SampleWordsDecode := by
  unfold Obligations.SampleWordsDecode
  decide

end Sys2Proof

namespace Sys2Proof.Machine

theorem not_inRange_of_fault {s : State} {base len : Nat} (hp : s.cfg.addrPolicy = .fault) (hlen : len ≠ 0)
    (h : 4096 < base + len) : ¬ InRange s base len := by
  rintro (hm | h0 | hle)
  · rw [hp] at hm
    cases hm
  · exact hlen h0
  · omega

/-- Settles O6: the step of a fetched word that decodes, and the step of a fetch that is out of range. -/
theorem stepFetchesAdvancesAndRuns : Obligations.StepFetchesAdvancesAndRuns := by
  intro s ha
  refine ⟨fun i hr hd => step_of_decoded s _ i ha (fetch_of_inRange s hr) hd, fun hp hpc => ?_⟩
  have hr : ¬ InRange s s.pc.toNat 2 := not_inRange_of_fault hp (by decide) (by omega)
  exact ⟨_, _, step_of_fetch_error s _ ha (fetch_of_not_inRange s hr), rfl, rfl⟩

end Sys2Proof.Machine

/-! ## The display (40_display.md) -/

namespace Sys2Proof.Machine

/-- Settles O26: CLS completes with the clear framebuffer. -/
theorem clsTurnsEveryPixelOff : Obligations.ClsTurnsEveryPixelOff :=
  fun _ => ⟨_, rfl, Framebuffer.pixel_clear, rfl⟩

/-- The bit that the sprite of `Dxyn` in state `s` has for a pixel of the screen (40_display.md R101). -/
def State.drwBit (s : State) (x y : Reg) (n r c : Nat) : Bool :=
  spriteBit (s.bytesAt s.i.toNat n) ((s.reg y).toNat % 32) ((s.reg x).toNat % 64) r c

theorem exec_drw_of_inRange {s : State} {n : Nat} (h : InRange s s.i.toNat n) (x y : Reg) :
    exec (.drw x y n) s = .next ((s.completed (.drw x y n)).setOutcome .ok) :=
  (exec_drw_cases s x y n).elim And.right fun e => absurd h e.1

theorem exec_drw_of_not_inRange {s : State} {n : Nat} (h : ¬ InRange s s.i.toNat n) (x y : Reg) :
    exec (.drw x y n) s =
      .next (s.failed (.drw x y n) .addressOutOfRange (some (BitVec.ofNat 17 (max s.i.toNat 0x1000)))) :=
  (exec_drw_cases s x y n).elim (fun e => absurd e.1 h) And.right

/-! ### After a draw in range -/

section
variable {s t : State} {x y : Reg} {n : Nat} (h : InRange s s.i.toNat n) (ht : exec (.drw x y n) s = .next t)
include h ht

theorem eq_completed_of_drw : t = (s.completed (.drw x y n)).setOutcome .ok := by
  rw [exec_drw_of_inRange h] at ht
  cases ht
  rfl

theorem pixel_of_drw {r c : Nat} (hr : r < 32) (hc : c < 64) :
    t.fb.pixel r c = (s.fb.pixel r c ^^ s.drwBit x y n r c) := by
  obtain rfl := eq_completed_of_drw h ht
  exact s.drawn_pixel x y n r c hr hc

theorem reg_of_drw {r : Reg} (hr : r ≠ vF) : t.reg r = s.reg r := by
  obtain rfl := eq_completed_of_drw h ht
  exact s.completed_reg_of_not_dest _ r id fun hf => hr hf.2

theorem vF_of_drw : t.reg vF = flagByte (s.drawn x y n).collision := by
  obtain rfl := eq_completed_of_drw h ht
  exact (State.setFlag_reg ..).trans (if_pos rfl)

theorem vF_of_drw_eq_one_iff : t.reg vF = 1 ↔
    ∃ r c, r < 32 ∧ c < 64 ∧ s.fb.pixel r c = true ∧ s.drwBit x y n r c = true := by
  rw [vF_of_drw h ht, flagByte_eq_one]
  exact s.drawn_collision x y n

theorem inRange_of_drw : InRange t t.i.toNat n := by
  obtain rfl := eq_completed_of_drw h ht
  exact h

/-- The draw leaves memory, I and the two coordinates alone, so the same draw after it has the same sprite at the same
place. -/
theorem drwBit_of_drw (hx : x ≠ vF) (hy : y ≠ vF) (r c : Nat) : t.drwBit x y n r c = s.drwBit x y n r c := by
  rw [State.drwBit, reg_of_drw h ht hx, reg_of_drw h ht hy]
  obtain rfl := eq_completed_of_drw h ht
  rfl

end

/-- Settles O27: the two ways in which a draw ends. -/
theorem drwXorsSpriteIntoScreen : Obligations.DrwXorsSpriteIntoScreen := by
  intro s x y n
  refine ⟨fun h => ?_, fun h => exec_drw_of_not_inRange h x y⟩
  have ht := exec_drw_of_inRange h x y
  refine ⟨_, ht, fun r c => pixel_of_drw h ht, ?_, vF_of_drw_eq_one_iff h ht, fun r => reg_of_drw h ht, rfl⟩
  rw [vF_of_drw h ht]
  exact flagByte_zero_or_one _

/-- Settles O28: the second draw XORs the same bits into the screen again, and under a 1 bit it meets the inverse of the
first screen. -/
theorem drawingTwiceRestoresScreen : Obligations.DrawingTwiceRestoresScreen := by
  intro s t u x y n hx hy h ht hu
  have h' := inRange_of_drw h ht
  have same := drwBit_of_drw h ht hx hy
  refine ⟨Framebuffer.ext_pixel fun r hr c hc => ?_, (vF_of_drw_eq_one_iff h' hu).trans ?_⟩
  · calc u.fb.pixel r c
      _ = (t.fb.pixel r c ^^ t.drwBit x y n r c) := pixel_of_drw h' hu hr hc
      _ = (s.fb.pixel r c ^^ s.drwBit x y n r c ^^ s.drwBit x y n r c) := by rw [pixel_of_drw h ht hr hc, same]
      _ = s.fb.pixel r c := by rw [Bool.xor_assoc, Bool.xor_self, Bool.xor_false]
  · refine exists_congr fun r => exists_congr fun c => and_congr_right fun hr => and_congr_right fun hc => ?_
    rw [pixel_of_drw h ht hr hc, same]
    refine and_congr_left fun (hb : s.drwBit x y n r c = true) => ?_
    rw [hb, Bool.xor_true, Bool.not_eq_true']

end Sys2Proof.Machine

/-! ## Control flow (41_control_flow.md) -/

namespace Sys2Proof.Machine

/-! ### CALL and RET -/

section
variable {s : State}

theorem exec_ret_of_pos (h : 0 < s.sp.val) : exec .ret s =
    .next { s with sp := ⟨s.sp.val - 1, by omega⟩, pc := s.stack[s.sp.val - 1]'(by omega), outcome := .ok } :=
  (exec_ret_cases s).elim (fun ⟨_, e⟩ => e) fun ⟨h0, _⟩ => absurd h0 h.ne'

theorem exec_ret_of_empty (h : s.sp.val = 0) : exec .ret s = .next (s.failed .ret .stackUnderflow none) :=
  exec_of_failsWith (.inl ⟨rfl, rfl, rfl, h⟩)

theorem exec_call_of_lt (h : s.sp.val < 16) (nnn : Addr12) : exec (.call nnn) s =
    .next { s with
      stack := s.stack.set s.sp.val s.pc
      sp := ⟨s.sp.val + 1, Nat.succ_lt_succ h⟩
      pc := zextAddr nnn
      outcome := .ok } :=
  (exec_call_cases s nnn).elim (fun ⟨_, e⟩ => e) fun ⟨hfull, _⟩ => absurd hfull h.ne

theorem exec_call_of_full (h : s.sp.val = 16) (nnn : Addr12) :
    exec (.call nnn) s = .next (s.failed (.call nnn) .stackOverflow none) :=
  exec_of_failsWith (.inr (.inl ⟨rfl, rfl, ⟨nnn, rfl⟩, h⟩))

end

/-- Settles O31: a CALL that completes pushes PC to the slot that RET then pops. -/
theorem callThenRetRestoresPc : Obligations.CallThenRetRestoresPc := by
  intro s t u nnn p hcall hok hret
  obtain ⟨hsp, e⟩ | ⟨_, e⟩ := exec_call_cases s nnn <;> rw [e] at hcall <;> cases hcall
  · rw [exec_ret_of_pos (Nat.succ_pos s.sp.val)] at hret
    cases hret
    exact ⟨Vector.getElem_set_self hsp, rfl, rfl⟩
  · cases hok

/-- Settles O29: the two ways in which RET ends. -/
theorem retPopsOrUnderflows : Obligations.RetPopsOrUnderflows := by
  refine fun s => ⟨fun hpos => ?_, exec_ret_of_empty⟩
  exact ⟨_, exec_ret_of_pos hpos, Nat.sub_add_cancel hpos, Vector.getElem?_eq_getElem _, rfl⟩

/-- Settles O30: the two ways in which CALL ends. -/
theorem callPushesOrOverflows : Obligations.CallPushesOrOverflows := by
  refine fun s nnn => ⟨fun hlt => ?_, fun hfull => exec_call_of_full hfull nnn⟩
  exact ⟨_, exec_call_of_lt hlt nnn, rfl, Vector.getElem?_set_self hlt,
    fun j hj => Vector.getElem?_set_ne hlt hj.symm, zextAddr_toNat nnn, rfl⟩

/-! ### Jumps -/

/-- Settles O32: JP completes with the address field as its PC. -/
theorem jpSetsPc : Obligations.JpSetsPc :=
  fun _ nnn => ⟨_, rfl, zextAddr_toNat nnn, rfl⟩

/-- The target of JP V0 does not wrap (R118). -/
theorem zextAddr_add_zextByte_toNat (nnn : Addr12) (b : Byte) :
    (zextAddr nnn + zextByte b).toNat = nnn.toNat + b.toNat := by
  have hn := nnn.isLt
  have hb := b.isLt
  rw [BitVec.toNat_add, zextAddr_toNat, zextByte_toNat]
  omega

/-- Settles O33: the two summands are at most 0xFFF and 0xFF. -/
theorem jpV0AddsV0ToTarget : Obligations.JpV0AddsV0ToTarget := by
  intro s nnn
  have htarget := zextAddr_add_zextByte_toNat nnn (s.reg 0)
  refine ⟨_, rfl, htarget, htarget.trans_le ?_, rfl⟩
  have hn := nnn.isLt
  have hb := (s.reg 0).isLt
  omega

/-! ### Skips -/

/-- An instruction that completes with a skip writes PC alone, by the condition of the skip (R110). -/
theorem exists_next_of_skipIf {s : State} {i : Instr} (c : Bool) (h : exec i s = complete (s.skipIf c)) :
    ∃ t, exec i s = .next t ∧ t = { s with pc := t.pc, outcome := .ok } ∧
      t.pc.toNat = if c then (s.pc.toNat + 2) % 65536 else s.pc.toNat := by
  refine ⟨_, h, ?_, ?_⟩ <;> cases c <;> rfl

/-- Settles O34: each of the four is a skip, and two bytes are equal when their numbers are. -/
theorem skipsAdvancePcWhenConditionHolds : Obligations.SkipsAdvancePcWhenConditionHolds := by
  intro s x y kk
  simp only [BitVec.toNat_inj]
  refine ⟨?_, ?_, ?_, ?_⟩
  · simpa only [beq_iff_eq] using exists_next_of_skipIf (i := .seImm x kk) (s.reg x == kk) rfl
  · simpa only [bne_iff_ne, ne_eq, ite_not] using exists_next_of_skipIf (i := .sneImm x kk) (s.reg x != kk) rfl
  · simpa only [beq_iff_eq] using exists_next_of_skipIf (i := .seReg x y) (s.reg x == s.reg y) rfl
  · simpa only [bne_iff_ne, ne_eq, ite_not] using exists_next_of_skipIf (i := .sneReg x y) (s.reg x != s.reg y) rfl

end Sys2Proof.Machine

/-! ## Loads and arithmetic (42_load_alu.md) -/

namespace Sys2Proof.Machine

/-! ### Results as numbers -/

theorem addByte_toNat (a b : Byte) : (addByte a b).toNat = (a.toNat + b.toNat) % 256 :=
  BitVec.toNat_ofNat _ 8

/-- The remainder is that of the integer difference, which a borrow makes negative (R137, R139). -/
theorem subByte_toNat (a b : Byte) : ((subByte a b).toNat : Int) = (a.toNat - b.toNat : Int) % 256 := by
  rw [subByte, BitVec.toNat_ofInt]
  exact Int.toNat_of_nonneg (Int.emod_nonneg _ (by decide))

theorem halfByte_toNat (a : Byte) : (halfByte a).toNat = a.toNat / 2 := by
  have hlt : a.toNat / 2 < 2 ^ 8 := (Nat.div_le_self _ _).trans_lt a.isLt
  exact (BitVec.toNat_ofNat _ 8).trans (Nat.mod_eq_of_lt hlt)

theorem doubleByte_toNat (a : Byte) : (doubleByte a).toNat = a.toNat * 2 % 256 :=
  BitVec.toNat_ofNat _ 8

/-! ### The two ways to write a result: with a flag and without -/

section
variable {s : State} {i : Instr}

/-- An instruction that completes with one register write changes that register alone. -/
theorem exists_next_of_setReg (x : Reg) (b : Byte) (h : exec i s = complete (s.setReg x b)) :
    ∃ t, exec i s = .next t ∧ t.reg x = b ∧ (∀ r, r ≠ x → t.reg r = s.reg r) ∧
      t = { s with v := t.v, outcome := .ok } :=
  ⟨_, h, s.setReg_reg_self x b, fun r => s.setReg_reg_of_ne x r b, rfl⟩

/-- An instruction that completes with a result and a flag changes their two registers alone; where they are one
register, it holds the flag (R129). -/
theorem exists_next_of_setResultFlag (x : Reg) (b : Byte) (c : Bool)
    (h : exec i s = complete (s.setResultFlag x b c)) :
    ∃ t, exec i s = .next t ∧ (x ≠ vF → t.reg x = b) ∧ t.reg vF = flagByte c ∧
      (∀ r, r ≠ x → r ≠ vF → t.reg r = s.reg r) ∧ t = { s with v := t.v, outcome := .ok } := by
  refine ⟨_, h, fun hx => ?_, s.setResultFlag_vF x b c, fun r hr hf => ?_, rfl⟩
  · exact (s.setResultFlag_reg x x b c).trans ((if_neg hx).trans (if_pos rfl))
  · exact (s.setResultFlag_reg x r b c).trans ((if_neg hf).trans (if_neg hr))

end

/-! ### Results with a flag -/

/-- Settles O39: the result is the sum, the flag its carry. -/
theorem addRegistersSetsCarryLast : Obligations.AddRegistersSetsCarryLast := by
  intro s x y
  obtain ⟨t, ht, hx, hf, frame⟩ := exists_next_of_setResultFlag (i := .addReg x y) x _ _ rfl
  exact ⟨t, ht, fun h => hx h ▸ addByte_toNat _ _, hf.trans (flagByte_decide _), frame⟩

/-- What SUB and SUBN share: an instruction that writes the difference of two registers and its not-borrow. -/
theorem exists_next_of_subByte {s : State} {i : Instr} (x : Reg) (a b : Byte)
    (h : exec i s = complete (s.setResultFlag x (subByte a b) (notBorrow a b))) :
    ∃ t, exec i s = .next t ∧ (x ≠ vF → ((t.reg x).toNat : Int) = (a.toNat - b.toNat : Int) % 256) ∧
      (t.reg vF = if b.toNat ≤ a.toNat then 1 else 0) ∧
      (∀ r, r ≠ x → r ≠ vF → t.reg r = s.reg r) ∧ t = { s with v := t.v, outcome := .ok } := by
  obtain ⟨t, ht, hx, hf, frame⟩ := exists_next_of_setResultFlag x _ _ h
  exact ⟨t, ht, fun hne => hx hne ▸ subByte_toNat a b, hf.trans (flagByte_decide _), frame⟩

/-- Settles O40: SUB and SUBN are one subtraction with its operands in either order. -/
theorem subtractionsSetNotBorrowLast : Obligations.SubtractionsSetNotBorrowLast :=
  fun s x y => ⟨exists_next_of_subByte x (s.reg x) (s.reg y) rfl, exists_next_of_subByte x (s.reg y) (s.reg x) rfl⟩

/-- Settles O41: the results are the half and the double of `V[x]`, the flags its two end bits; `y` is not read. -/
theorem shiftsSetDroppedBitLast : Obligations.ShiftsSetDroppedBitLast := by
  refine fun s x y => ⟨?_, ?_⟩
  · obtain ⟨t, ht, hx, hf, frame⟩ := exists_next_of_setResultFlag (s := s) (i := .shr x y) x _ _ rfl
    exact ⟨t, ht, fun h => hx h ▸ halfByte_toNat _, hf ▸ flagByte_lowBit _, frame⟩
  · obtain ⟨t, ht, hx, hf, frame⟩ := exists_next_of_setResultFlag (s := s) (i := .shl x y) x _ _ rfl
    exact ⟨t, ht, fun h => hx h ▸ doubleByte_toNat _, hf ▸ flagByte_highBit _, frame⟩

/-! ### Results without a flag -/

/-- Settles O36: each of the three is one register write. -/
theorem registerLoadsCopyTheirSource : Obligations.RegisterLoadsCopyTheirSource :=
  fun s x y kk => ⟨exists_next_of_setReg x kk rfl, exists_next_of_setReg x (s.reg y) rfl,
    exists_next_of_setReg x s.dt rfl⟩

/-- Settles O37: the one register written holds the sum. -/
theorem addImmediateWrapsWithoutFlag : Obligations.AddImmediateWrapsWithoutFlag := by
  intro s x kk
  obtain ⟨t, ht, hx, frame⟩ := exists_next_of_setReg (i := .addImm x kk) x _ rfl
  exact ⟨t, ht, hx ▸ addByte_toNat _ _, frame⟩

/-- Settles O38: the one register written holds the bitwise operation of the two bytes. -/
theorem logicOperationsAreBitwise : Obligations.LogicOperationsAreBitwise := by
  refine fun s x y => ⟨?_, ?_, ?_⟩
  · obtain ⟨t, ht, hx, frame⟩ := exists_next_of_setReg (s := s) (i := .orReg x y) x _ rfl
    exact ⟨t, ht, fun k => hx ▸ BitVec.getLsbD_or, frame⟩
  · obtain ⟨t, ht, hx, frame⟩ := exists_next_of_setReg (s := s) (i := .andReg x y) x _ rfl
    exact ⟨t, ht, fun k => hx ▸ BitVec.getLsbD_and, frame⟩
  · obtain ⟨t, ht, hx, frame⟩ := exists_next_of_setReg (s := s) (i := .xorReg x y) x _ rfl
    exact ⟨t, ht, fun k => hx ▸ BitVec.getLsbD_xor, frame⟩

end Sys2Proof.Machine

/-! ## Index register and memory (43_index_memory.md) -/

namespace Sys2Proof.Machine

open Sys2Proof.Config

/-! ### Block transfers -/

/-- An instruction that completes with a store at I changes memory alone: the stored bytes are found in their order from
I on, and no byte outside the transfer differs (20_memory.md R66). -/
theorem exists_next_of_putBytes {s : State} {i : Instr} (bs : List Byte) (hwf : Memory.wf s.cfg.font s.mem)
    (hlen : bs.length ≤ memSize) (h : exec i s = complete (s.putBytes s.i.toNat bs)) :
    ∃ t, exec i s = .next t ∧ (∀ k, ∀ hk : k < bs.length, t.byteAt (s.i.toNat + k) = bs[k]) ∧
      (∀ a, ¬ InTransfer s.i.toNat bs.length a → t.byteAt a = s.byteAt a) ∧
      t = { s with mem := t.mem, outcome := .ok } := by
  refine ⟨_, h, fun k hk => s.byteAt_putBytes _ k bs hk hlen hwf,
    fun a => s.byteAt_putBytes_of_not_inTransfer _ a bs, ?_⟩
  rw [State.putBytes_eq]
  rfl

/-- The three digits fit a byte, so that storing them loses nothing (R153). -/
theorem decimalDigits_toNat (b : Byte) :
    (decimalDigits b)[0].toNat = b.toNat / 100 ∧ (decimalDigits b)[1].toNat = b.toNat / 10 % 10 ∧
      (decimalDigits b)[2].toNat = b.toNat % 10 := by
  have hb := b.isLt
  have fits {d : Nat} (hd : d < 2 ^ 8) : (BitVec.ofNat 8 d).toNat = d :=
    (BitVec.toNat_ofNat d 8).trans (Nat.mod_eq_of_lt hd)
  exact ⟨fits (by omega), fits (by omega), fits (by omega)⟩

/-- Settles O44: the two ways in which LD B ends; in range its three digits are stored. -/
theorem bcdStoresThreeDigits : Obligations.BcdStoresThreeDigits := by
  intro s x
  obtain ⟨hr, e⟩ | ⟨hn, e⟩ := exec_ldB_cases s x
  · refine ⟨fun ⟨hwf, _⟩ _ => ?_, fun hn => absurd hr hn⟩
    have hsize : (decimalDigits (s.reg x)).length ≤ memSize := (decimalDigits_length _).trans_le (by decide)
    obtain ⟨t, ht, stored, frame⟩ := exists_next_of_putBytes (decimalDigits (s.reg x)) hwf hsize e
    obtain ⟨hundreds, tens, ones⟩ := decimalDigits_toNat (s.reg x)
    have digit (k : Nat) (hk : k < 3) := congrArg BitVec.toNat (stored k hk)
    exact ⟨t, ht, (digit 0 (by decide)).trans hundreds, (digit 1 (by decide)).trans tens,
      (digit 2 (by decide)).trans ones, frame⟩
  · exact ⟨fun _ hr => absurd hr hn, fun _ => e⟩

/-- Settles O45: the two ways in which the store ends; in range the registers are stored. -/
theorem storeRegistersWritesBlock : Obligations.StoreRegistersWritesBlock := by
  intro s x
  have hlen := s.regsUpTo_length x
  obtain ⟨hr, e⟩ | ⟨hn, e⟩ := exec_storeRegs_cases s x
  · refine ⟨fun ⟨hwf, _⟩ _ => ?_, fun hn => absurd hr hn⟩
    have hsize : (s.regsUpTo x).length ≤ memSize := hlen.trans_le (x.isLt.trans (by decide))
    obtain ⟨t, ht, stored, untouched, frame⟩ := exists_next_of_putBytes (s.regsUpTo x) hwf hsize e
    rw [hlen] at untouched
    exact ⟨t, ht, fun k hk => (stored k (by omega)).trans (s.regsUpTo_getElem x k _), untouched, frame⟩
  · exact ⟨fun _ hr => absurd hr hn, fun _ => e⟩

/-- Settles O46: the two ways in which the load ends; in range the registers are those of `State.loadedRegs`. -/
theorem loadRegistersReadsBlock : Obligations.LoadRegistersReadsBlock := by
  intro s x
  obtain ⟨hr, e⟩ | ⟨hn, e⟩ := exec_loadRegs_cases s x
  · rw [State.setRegsFrom_bytesAt] at e
    refine ⟨fun _ => ⟨_, e, fun k hk => ?_, fun k hk => ?_, rfl⟩, fun hn => absurd hr hn⟩
    · exact (s.loadedRegs_get x k).trans (if_pos hk)
    · exact (s.loadedRegs_get x k).trans (if_neg hk.not_ge)
  · exact ⟨fun hr => absurd hr hn, fun _ => e⟩

/-- Settles O47: the store leaves I alone, so the load reads the block the store wrote. -/
theorem loadAfterStoreRestoresRegisters : Obligations.LoadAfterStoreRestoresRegisters := by
  intro s t u x v hinv hr hstore hload k hk
  obtain ⟨t', ht', stored, -, frame⟩ := (storeRegistersWritesBlock s x).1 hinv hr
  obtain rfl : t' = t := Host.Outcome.next.inj (ht'.symm.trans hstore)
  have hi : t'.i = s.i := by rw [frame]
  have hcfg : t'.cfg = s.cfg := by rw [frame]
  have hr' : InRange { t' with v := v } t'.i.toNat (x.val + 1) := by
    rw [InRange, hi, hcfg]
    exact hr
  obtain ⟨u', hu', loaded, -⟩ := (loadRegistersReadsBlock { t' with v := v } x).1 hr'
  obtain rfl : u' = u := Host.Outcome.next.inj (hu'.symm.trans hload)
  calc u'.reg k
    _ = t'.byteAt (t'.i.toNat + k.val) := loaded k hk
    _ = t'.byteAt (s.i.toNat + k.val) := by rw [hi]
    _ = s.reg k := stored k hk

/-! ### The writers of I -/

/-- Settles O42: each of the three completes with one write of I. -/
theorem indexRegisterInstructions : Obligations.IndexRegisterInstructions := by
  refine fun s x nnn => ⟨⟨_, rfl, zextAddr_toNat nnn, rfl⟩, ⟨_, rfl, ?_, rfl⟩, ⟨_, rfl, glyphAddr_toNat (s.reg x), rfl⟩⟩
  calc (s.i + zextByte (s.reg x)).toNat
    _ = (s.i.toNat + (zextByte (s.reg x)).toNat) % 65536 := BitVec.toNat_add _ _
    _ = (s.i.toNat + (s.reg x).toNat) % 65536 := by rw [zextByte_toNat]

/-- Settles O43: the five bytes from I on are those of the glyph table, which ends at address 79. -/
theorem glyphAddressPointsAtGlyph : Obligations.GlyphAddressPointsAtGlyph := by
  intro s t x table hdigit ht k hk
  cases ht
  have haddr : (glyphAddr (s.reg x)).toNat + k = 5 * (s.reg x).toNat + k := by rw [glyphAddr_toNat, Nat.mul_comm]
  calc s.byteAt ((glyphAddr (s.reg x)).toNat + k)
    _ = s.byteAt (5 * (s.reg x).toNat + k) := by rw [haddr]
    _ = s.cfg.font.byte (5 * (s.reg x).toNat + k) := table _ (by omega)

end Sys2Proof.Machine

/-! ## Random bytes, keypad and timers (44_keypad_timers_random.md) -/

namespace Sys2Proof.Machine

/-! ### The key tests -/

theorem State.keyDown_iff (s : State) (k : Byte) :
    s.keyDown k = true ↔ k.toNat ≤ 15 ∧ s.keypad.getLsbD k.toNat = true := by
  rw [State.keyDown, Bool.and_eq_true, decide_eq_true_eq]

/-- Settles O35: both are skips, SKP by the bit of the key and SKNP by its negation. -/
theorem keySkipsTestKeypadBit : Obligations.KeySkipsTestKeypadBit := by
  intro s x
  simp only [← State.keyDown_iff]
  refine ⟨exists_next_of_skipIf (s.keyDown (s.reg x)) rfl, ?_⟩
  simpa only [Bool.not_eq_true', ← Bool.not_eq_true, ite_not] using
    exists_next_of_skipIf (i := .sknp x) (!s.keyDown (s.reg x)) rfl

/-! ### The wait for a key -/

section
variable {s : State}

theorem step_eq_awaited (h : s.await = true) : step s = .next (s.awaited.setOutcome .ok) :=
  (step_of_await s h).trans (awaitKey_eq s)

theorem State.awaited_of_no_key (h : s.keypad = 0) : s.awaited = s :=
  if_neg (not_not_intro h)

theorem State.awaited_of_key (h : s.keypad ≠ 0) :
    s.awaited = (s.setReg s.kx (BitVec.ofNat 8 (keySelect s.cfg.keySelect s.keypad).val)).stopAwait :=
  if_pos h

theorem State.awaited_reg_kx (h : s.keypad ≠ 0) :
    (s.awaited.reg s.kx).toNat = (keySelect s.cfg.keySelect s.keypad).val := by
  have hlt : (keySelect s.cfg.keySelect s.keypad).val < 2 ^ 8 := Fin.val_lt_of_le _ (by decide)
  rw [State.awaited_of_key h, State.stopAwait_reg, State.setReg_reg_self, BitVec.toNat_ofNat, Nat.mod_eq_of_lt hlt]

theorem State.awaited_reg_of_ne {r : Reg} (hr : r ≠ s.kx) : s.awaited.reg r = s.reg r := by
  by_cases h : s.keypad = 0
  · rw [State.awaited_of_no_key h]
  · rw [State.awaited_of_key h, State.stopAwait_reg, s.setReg_reg_of_ne _ _ _ hr]

theorem State.awaited_frame (h : s.keypad ≠ 0) : s.awaited = { s with v := s.awaited.v, await := false } := by
  rw [State.awaited_of_key h]
  rfl

end

/-- Settles O53: the two modes of `Fx0A`; under WAIT the next step is an awaiting one, with no key down or with one. -/
theorem waitForKeyStartsWaitOrRaises : Obligations.WaitForKeyStartsWaitOrRaises := by
  refine fun s x => ⟨fun hw => ?_, fun hu => exec_of_failsWith (.inr (.inr (.inl ⟨rfl, rfl, ⟨x, rfl⟩, hu⟩)))⟩
  obtain ⟨_, e⟩ | ⟨hu, _⟩ := exec_ldVxK_cases s x
  · refine ⟨_, e, rfl, fun h0 => ?_, fun hkey => ⟨_, step_eq_awaited rfl, ?_⟩⟩
    · rw [step_eq_awaited rfl, State.awaited_of_no_key h0]
      rfl
    · have hk := State.awaited_reg_kx hkey
      exact ⟨hk.trans_lt (Fin.isLt _), hk ▸ keySelect_down _ _ hkey,
        fun _ => State.awaited_reg_of_ne (s := (s.startAwait x).setOutcome .ok),
        congrArg (State.setOutcome · .ok) (State.awaited_frame hkey)⟩
  · exact absurd (hw.symm.trans hu) (by decide)

/-! ### The random byte -/

theorem State.draw_of_supply {s : State} {b : Byte} {bs : List Byte} (h : s.rngSupply = b :: bs) :
    s.rngNext = b ∧ s.rngAdvance.rngSupply = bs := by
  rw [State.rngNext, State.rngAdvance_rngSupply, h]
  exact ⟨rfl, rfl⟩

/-- Settles O51: one draw, then one register write. -/
theorem rndMasksDrawnByte : Obligations.RndMasksDrawnByte := by
  intro s x kk
  have hreg := s.rngAdvance.setReg_reg_self x (s.rngNext &&& kk)
  refine ⟨_, s.rngNext, rfl, hreg, fun _ _ => State.draw_of_supply, fun k hk => ?_, rfl,
    fun q => s.rngAdvance.setReg_reg_of_ne x q _, rfl⟩
  refine (congrArg (·.getLsbD k) hreg).trans ?_
  rw [BitVec.getLsbD_and, hk, Bool.and_false]

/-! ### The timer writes -/

/-- Settles O52: each of the two completes with one write of its timer. -/
theorem timerWritesCopyRegister : Obligations.TimerWritesCopyRegister :=
  fun _ _ => ⟨rfl, rfl⟩

end Sys2Proof.Machine

/-! ## Errors and the host's transactions (60_exceptions.md) -/

namespace Sys2Proof.Machine

open Sys2Proof.Config

/-! ### What an error leaves (R208) -/

/-- Settles O10: an error is taken at the fetch, where PC is not advanced and no word was obtained, or after it. -/
theorem errorsArePrecise : Obligations.ErrorsArePrecise := by
  intro s t e hs he
  obtain ⟨-, ⟨_, -, -, rfl, rfl⟩ | ⟨_, _, -, -, rfl, rfl⟩ | ⟨_, _, _, _, -, -, rfl, rfl, -⟩⟩ :=
    step_error_cases s t e hs he
  · exact ⟨fun _ => rfl, fun hw => absurd rfl hw⟩
  · exact ⟨fun hw => absurd hw (Option.some_ne_none _), fun _ => rfl⟩
  · exact ⟨fun hw => absurd hw (Option.some_ne_none _), fun _ => rfl⟩

/-! ### Which errors a step raises, and when (R200, R202 to R206) -/

theorem decodeWord_eq_error_iff {w : Word} : (∃ r, decodeWord w = .error r) ↔ ∀ i, decodeWord w ≠ .ok i := by
  cases decodeWord w <;> simp

/-- A step that awaits no key and raises an error of kind `k` does so at the fetch, at the decode, or in an instruction
(R200); `step_raises_iff` ties it to `step`. -/
def StepRaises (s : State) (k : ErrorKind) : Prop :=
  (k = .addressOutOfRange ∧ ¬ InRange s s.pc.toNat 2) ∨
  (k = .invalidOpcode ∧ ∃ w, s.fetch = .ok w ∧ ∀ i, decodeWord w ≠ .ok i) ∨
  ∃ w i ea, s.fetch = .ok w ∧ decodeWord w = .ok i ∧ FailsWith s i k ea

theorem step_raises_iff {s t : State} (hs : step s = .next t) (ha : s.await = false) (k : ErrorKind) :
    (∃ e, t.outcome = .error e ∧ e.kind = k) ↔ StepRaises s k := by
  constructor
  · rintro ⟨e, he, rfl⟩
    obtain ⟨-, ⟨_, hr, -, rfl, -⟩ | ⟨w, r, hf, hd, rfl, -⟩ | ⟨w, i, k, ea, hf, hd, rfl, -, hk⟩⟩ :=
      step_error_cases s t e hs he
    · exact .inl ⟨rfl, hr⟩
    · exact .inr (.inl ⟨rfl, w, hf, decodeWord_eq_error_iff.1 ⟨r, hd⟩⟩)
    · exact .inr (.inr ⟨w, i, ea, hf, hd, hk⟩)
  · rintro (⟨rfl, hr⟩ | ⟨rfl, w, hf, hw⟩ | ⟨w, i, ea, hf, hd, hk⟩)
    · rw [step_of_fetch_error s _ ha (fetch_of_not_inRange s hr)] at hs
      cases hs
      exact ⟨_, rfl, rfl⟩
    · obtain ⟨r, hd⟩ := decodeWord_eq_error_iff.2 hw
      rw [step_of_invalid s w r ha hf hd] at hs
      cases hs
      exact ⟨_, rfl, rfl⟩
    · have hk' : FailsWith s.advancePc i k ea := hk
      rw [step_of_decoded s w i ha hf hd, exec_of_failsWith hk'] at hs
      cases hs
      exact ⟨_, rfl, rfl⟩

section
variable (s : State)

theorem stepRaises_invalidOpcode_iff :
    StepRaises s .invalidOpcode ↔ ∃ w, s.fetch = .ok w ∧ ∀ i, decodeWord w ≠ .ok i := by
  simp [StepRaises, FailsWith]

/-- An error that instructions of one form alone raise, under a condition on the state (R203 to R205). -/
theorem stepRaises_iff_of_form {α : Type} (form : α → Instr) {k : ErrorKind} {cond : Prop}
    (hk : k ≠ .invalidOpcode ∧ k ≠ .addressOutOfRange)
    (h : ∀ i, (∃ ea, FailsWith s i k ea) ↔ (∃ a, i = form a) ∧ cond) :
    StepRaises s k ↔ cond ∧ ∃ w a, s.fetch = .ok w ∧ decodeWord w = .ok (form a) := by
  simp only [StepRaises, hk, false_and, false_or, exists_and_left, h]
  constructor
  · rintro ⟨w, hf, _, hd, ⟨a, rfl⟩, hc⟩
    exact ⟨hc, w, hf, a, hd⟩
  · rintro ⟨hc, w, hf, a, hd⟩
    exact ⟨w, hf, _, hd, ⟨a, rfl⟩, hc⟩

theorem stepRaises_unimplemented_iff : StepRaises s .unimplemented ↔
    s.cfg.fx0aMode = .unimplemented ∧ ∃ w x, s.fetch = .ok w ∧ decodeWord w = .ok (.ldVxK x) :=
  stepRaises_iff_of_form s .ldVxK (by decide) fun i => by simp [FailsWith]

theorem stepRaises_stackOverflow_iff : StepRaises s .stackOverflow ↔
    s.sp.val = 16 ∧ ∃ w nnn, s.fetch = .ok w ∧ decodeWord w = .ok (.call nnn) :=
  stepRaises_iff_of_form s .call (by decide) fun i => by simp [FailsWith]

theorem stepRaises_stackUnderflow_iff : StepRaises s .stackUnderflow ↔
    s.sp.val = 0 ∧ ∃ w, s.fetch = .ok w ∧ decodeWord w = .ok .ret := by
  simpa only [exists_const] using stepRaises_iff_of_form s (fun _ : Unit => .ret) (k := .stackUnderflow)
    (cond := s.sp.val = 0) (by decide) fun i => by simp [FailsWith]

/-- The addresses of the instruction's transfer, from I on, exceed 0xFFF (R206). -/
def AccessExceeds (s : State) (i : Instr) : Prop :=
  (∃ x y n, i = .drw x y n ∧ 1 ≤ n ∧ 0xFFF < s.i.toNat + n - 1) ∨
  (∃ x, i = .ldB x ∧ 0xFFF < s.i.toNat + 2) ∨
  (∃ x, (i = .storeRegs x ∨ i = .loadRegs x) ∧ 0xFFF < s.i.toNat + x.val)

theorem failsWith_addressOutOfRange_iff (i : Instr) : (∃ ea, FailsWith s i .addressOutOfRange ea) ↔
    s.cfg.addrPolicy = .fault ∧ AccessExceeds s i := by
  simp only [FailsWith, AccessExceeds, not_inRange_iff, reduceCtorEq, false_and, false_or, true_and, exists_eq_left]
  constructor
  · rintro (⟨x, y, n, hi, hp, hn, hlt⟩ | ⟨x, hi, hp, -, hlt⟩ | ⟨x, hi, hp, -, hlt⟩)
    · exact ⟨hp, .inl ⟨x, y, n, hi, hn, by omega⟩⟩
    · exact ⟨hp, .inr (.inl ⟨x, hi, by omega⟩)⟩
    · exact ⟨hp, .inr (.inr ⟨x, hi, by omega⟩)⟩
  · rintro ⟨hp, ⟨x, y, n, hi, hn, hlt⟩ | ⟨x, hi, hlt⟩ | ⟨x, hi, hlt⟩⟩
    · exact .inl ⟨x, y, n, hi, hp, hn, by omega⟩
    · exact .inr (.inl ⟨x, hi, hp, by omega, by omega⟩)
    · exact .inr (.inr ⟨x, hi, hp, by omega, by omega⟩)

theorem stepRaises_addressOutOfRange_iff : StepRaises s .addressOutOfRange ↔
    s.cfg.addrPolicy = .fault ∧ (0xFFF ≤ s.pc.toNat ∨
      ∃ w i, s.fetch = .ok w ∧ decodeWord w = .ok i ∧ AccessExceeds s i) := by
  have fetch_exceeds : ¬ InRange s s.pc.toNat 2 ↔ s.cfg.addrPolicy = .fault ∧ 0xFFF ≤ s.pc.toNat := by
    rw [not_inRange_iff]
    refine and_congr_right fun _ => ?_
    omega
  simp only [StepRaises, fetch_exceeds, reduceCtorEq, false_and, false_or, true_and, exists_and_left,
    failsWith_addressOutOfRange_iff]
  constructor
  · rintro (⟨hp, hpc⟩ | ⟨w, hf, i, hd, hp, hx⟩)
    · exact ⟨hp, .inl hpc⟩
    · exact ⟨hp, .inr ⟨w, hf, i, hd, hx⟩⟩
  · rintro ⟨hp, hpc | ⟨w, hf, i, hd, hx⟩⟩
    · exact .inl ⟨hp, hpc⟩
    · exact .inr ⟨w, hf, i, hd, hp, hx⟩

end

/-- Settles O12: no error while a key is awaited, else each kind by its clause of `StepRaises`. -/
theorem stepRaisesExactlyTheListedErrors : Obligations.StepRaisesExactlyTheListedErrors := by
  intro s t hs
  refine ⟨fun ha => awaitKey_outcome s t (step_of_await s ha ▸ hs), fun ha => ?_⟩
  have raises := step_raises_iff hs ha
  exact ⟨(raises _).trans (stepRaises_invalidOpcode_iff s), (raises _).trans (stepRaises_unimplemented_iff s),
    (raises _).trans (stepRaises_stackOverflow_iff s), (raises _).trans (stepRaises_stackUnderflow_iff s),
    (raises _).trans (stepRaises_addressOutOfRange_iff s)⟩

/-! ### The record of an error (R201) -/

/-- The address an out-of-range access reports fits the record's 17 bits (20_memory.md R66). -/
theorem toNat_reportedAddress (w : Word) : (BitVec.ofNat 17 (max w.toNat 0x1000)).toNat = max w.toNat 0x1000 :=
  (BitVec.toNat_ofNat _ 17).trans (Nat.mod_eq_of_lt (by omega))

/-- AddressOutOfRange alone reports an effective address, the lowest above 0xFFF from I on. -/
theorem FailsWith.ea_eq {s : State} {i : Instr} {k : ErrorKind} {ea : Option (BitVec 17)} (h : FailsWith s i k ea) :
    ea = if k = .addressOutOfRange then some (BitVec.ofNat 17 (max s.i.toNat 0x1000)) else none := by
  obtain ⟨rfl, rfl, -⟩ | ⟨rfl, rfl, -⟩ | ⟨rfl, rfl, -⟩ | ⟨rfl, rfl, -⟩ := h <;> rfl

theorem ErrorKind.code_bounds (k : ErrorKind) : 1 ≤ k.code ∧ k.code ≤ 5 := by
  cases k <;> decide

/-- Settles O11: the three ways to err, and the fetch that each of them had. -/
theorem errorRecordNamesFailingInstruction : Obligations.ErrorRecordNamesFailingInstruction := by
  intro s t e hs he
  refine ⟨e.kind.code_bounds.1, e.kind.code_bounds.2, ?_⟩
  obtain ⟨-, ⟨a, -, hf, rfl, -⟩ | ⟨w, r, hf, -, rfl, -⟩ | ⟨w, i, k, ea, hf, hd, rfl, -, hk⟩⟩ :=
    step_error_cases s t e hs he <;> rw [hf]
  · exact ⟨rfl, nofun, fun _ _ => ⟨rfl, rfl⟩, fun h => absurd rfl h,
      fun _ _ => congrArg some (toNat_reportedAddress s.pc), fun _ h => absurd rfl h⟩
  · exact ⟨rfl, fun _ h => congrArg some (Except.ok.inj h), nofun, fun _ => rfl, nofun, nofun⟩
  · refine ⟨rfl, fun _ h => ?_, nofun, fun h => hk.ea_eq.trans (if_neg h), nofun, fun h _ => ?_⟩
    · exact congrArg some ((decodeWord_ok hd).2.trans (Except.ok.inj h))
    · rw [hk.ea_eq.trans (if_pos h)]
      exact congrArg some (toNat_reportedAddress s.i)

/-- Settles O7: the step of a fetched word that does not decode. -/
theorem invalidWordRaisesInvalidOpcode : Obligations.InvalidWordRaisesInvalidOpcode := by
  rintro s _ ha hr rfl hw
  obtain ⟨r, hd⟩ := decodeWord_eq_error_iff.2 hw
  exact step_of_invalid s _ r ha (fetch_of_inRange s hr) hd

/-! ### AddressOutOfRange (R206) -/

/-- Under FAULT an access that exceeds 0xFFF ends its instruction with the error, before anything is read or written. -/
theorem exec_of_accessExceeds {s : State} {i : Instr} (hp : s.cfg.addrPolicy = .fault) (h : AccessExceeds s i) :
    exec i s = .next (s.failed i .addressOutOfRange (some (BitVec.ofNat 17 (max s.i.toNat 0x1000)))) := by
  obtain ⟨ea, hf⟩ := (failsWith_addressOutOfRange_iff s i).2 ⟨hp, h⟩
  rw [exec_of_failsWith hf, hf.ea_eq, if_pos rfl]

/-- Settles O13: under FAULT the fetch and the four accesses; MASK by `stepRaises_addressOutOfRange_iff`. -/
theorem accessOutOfRangeChangesNothing : Obligations.AccessOutOfRangeChangesNothing := by
  refine ⟨fun s hp => ⟨fun ha hpc => ?_, fun x y n hn hx => ?_, fun x hx => ?_, fun x hx => ?_, fun x hx => ?_⟩,
    fun s t e hp hs he hk => ?_⟩
  · exact step_of_fetch_error s _ ha (fetch_of_not_inRange s (not_inRange_of_fault hp (by decide) (by omega)))
  · exact exec_of_accessExceeds hp (.inl ⟨x, y, n, rfl, hn, hx⟩)
  · exact exec_of_accessExceeds hp (.inr (.inl ⟨x, rfl, hx⟩))
  · exact exec_of_accessExceeds hp (.inr (.inr ⟨x, .inl rfl, hx⟩))
  · exact exec_of_accessExceeds hp (.inr (.inr ⟨x, .inr rfl, hx⟩))
  · have ha := (step_error_cases s t e hs he).1
    have raised := (step_raises_iff hs ha .addressOutOfRange).1 ⟨e, he, hk⟩
    have hfault := ((stepRaises_addressOutOfRange_iff s).1 raised).1
    exact absurd (hp.symm.trans hfault) (by decide)

/-! ### The awaiting step (R221) -/

/-- Settles O8: `State.awaited` with no key down and with one; the lowest under the default KEY_SELECT. -/
theorem awaitingStepTakesKeyOrWaits : Obligations.AwaitingStepTakesKeyOrWaits := by
  intro s ha
  rw [step_eq_awaited ha]
  refine ⟨fun h0 => ?_, fun hkey => ?_⟩
  · rw [State.awaited_of_no_key h0]
    rfl
  · refine ⟨_, keySelect s.cfg.keySelect s.keypad, rfl, keySelect_down _ _ hkey, State.awaited_reg_kx hkey,
      fun _ => State.awaited_reg_of_ne, fun hlow => ?_, congrArg (State.setOutcome · .ok) (State.awaited_frame hkey)⟩
    rw [hlow]
    exact (lowestKey_spec s.keypad hkey).2

/-! ### The random source (R218) -/

theorem State.completed_rng (s : State) (i : Instr) (hi : ∀ x kk, i ≠ .rnd x kk) :
    (s.completed i).rngDraws = s.rngDraws ∧ (s.completed i).rngSupply = s.rngSupply := by
  cases i
  case rnd x kk => exact absurd rfl (hi x kk)
  all_goals exact ⟨rfl, rfl⟩

theorem State.awaited_rng (s : State) :
    s.awaited.rngDraws = s.rngDraws ∧ s.awaited.rngSupply = s.rngSupply := by
  unfold State.awaited
  split <;> exact ⟨rfl, rfl⟩

theorem exec_rng_of_ne {s t : State} {i : Instr} (hi : ∀ x kk, i ≠ .rnd x kk) (h : exec i s = .next t) :
    t.rngDraws = s.rngDraws ∧ t.rngSupply = s.rngSupply := by
  obtain ⟨-, rfl⟩ | ⟨k, ea, -, rfl⟩ := exec_next_cases h
  · exact s.completed_rng i hi
  · exact ⟨rfl, rfl⟩

/-- Settles O21: an executed RND draws, and none of the four things a step can be (R80) does otherwise. -/
theorem oneRandomDrawPerRnd : Obligations.OneRandomDrawPerRnd := by
  intro s t hs
  refine ⟨fun ⟨ha, w, x, kk, hf, hd⟩ => ?_, fun hno => ?_⟩
  · rw [step_of_decoded s w _ ha hf hd] at hs
    cases hs
    exact ⟨rfl, rfl⟩
  · obtain ⟨_, e⟩ | ⟨_, ea, _, e⟩ | ⟨_, w, r, _, _, e⟩ | ⟨ha, w, i, hf, hd, e⟩ := step_cases s <;> rw [e] at hs
    · rw [awaitKey_eq] at hs
      cases hs
      exact s.awaited_rng
    · cases hs
      exact ⟨rfl, rfl⟩
    · cases hs
      exact ⟨rfl, rfl⟩
    · refine exec_rng_of_ne (s := s.advancePc) (fun x kk hi => hno ⟨ha, w, x, kk, hf, ?_⟩) hs
      rw [hd, hi]

/-! ### The host's transactions (R214 to R217) -/

theorem getLsbD_setKeyBit (m : BitVec 16) {k : Nat} (hk : k ≤ 15) (b : Bool) (j : Nat) :
    (setKeyBit m k b).getLsbD j = if j = k then b else m.getLsbD j := by
  have hbit : (1#16 <<< k).getLsbD j = decide (j = k) := by
    rw [← BitVec.twoPow_eq, BitVec.getLsbD_twoPow, decide_eq_true (Nat.lt_succ_of_le hk), Bool.true_and]
    exact decide_eq_decide.2 eq_comm
  rw [setKeyBit, apply_ite (BitVec.getLsbD · j), BitVec.getLsbD_or, BitVec.getLsbD_and, BitVec.getLsbD_not, hbit]
  by_cases hj : j = k
  · cases b <;> simp [hj]
  · have bounded : m.getLsbD j = true → j < 16 := BitVec.lt_of_getLsbD
    cases b
    · simpa [hj] using bounded
    · simp [hj]

/-- A key of the keypad is set or cleared, and nothing else changes (R216). -/
theorem State.exists_setKey_of_le (s : State) {k : Nat} (hk : k ≤ 15) (b : Bool) :
    ∃ t, s.setKey k b = (t, .done) ∧ t.keypad.getLsbD k = b ∧
      (∀ j, j ≠ k → t.keypad.getLsbD j = s.keypad.getLsbD j) ∧ t = { s with keypad := t.keypad } := by
  refine ⟨_, if_pos hk, ?_, fun j hj => ?_, rfl⟩
  · exact (getLsbD_setKeyBit s.keypad hk b k).trans (if_pos rfl)
  · exact (getLsbD_setKeyBit s.keypad hk b j).trans (if_neg hj)

theorem State.setKey_of_gt (s : State) {k : Nat} (hk : 15 < k) (b : Bool) : s.setKey k b = (s, .refused) :=
  if_neg (Nat.not_le_of_lt hk)

/-- Settles O56: both transactions are `State.setKey`. -/
theorem keyTransactionsChangeOneBit : Obligations.KeyTransactionsChangeOneBit := by
  refine fun s k => ⟨fun hk => ?_, fun hk => ?_⟩
  · obtain ⟨t, ht, hdown⟩ := s.exists_setKey_of_le hk true
    obtain ⟨u, hu, hup⟩ := s.exists_setKey_of_le hk false
    exact ⟨⟨t, congrArg _ ht, hdown⟩, ⟨u, congrArg _ hu, hup⟩⟩
  · exact ⟨congrArg _ (s.setKey_of_gt hk true), congrArg _ (s.setKey_of_gt hk false)⟩

theorem tickDown_toNat (b : Byte) : (tickDown b).toNat = b.toNat - 1 :=
  (BitVec.toNat_ofNat _ 8).trans (Nat.mod_eq_of_lt (by omega))

/-- Settles O55: a tick is `tickDown` on both timers. -/
theorem tickDecrementsBothTimers : Obligations.TickDecrementsBothTimers :=
  fun s => ⟨s.tick, rfl, tickDown_toNat s.dt, tickDown_toNat s.st, rfl⟩

/-- Settles O57: each of the four is one row of the transactions. -/
theorem hostReadsChangeNothing : Obligations.HostReadsChangeNothing :=
  fun _ => ⟨rfl, rfl, rfl, rfl⟩

end Sys2Proof.Machine

/-! ## A run that has ended (70_reset_and_hazards.md) -/

namespace Sys2Proof.Machine

/-- A jump to the address that PC holds brings back the PC from before the fetch's advance (R81, R112). -/
theorem exec_jp_advancePc_of_pc {s : State} {nnn : Addr12} (hpc : s.pc.toNat = nnn.toNat) :
    exec (.jp nnn) s.advancePc = .next (s.setOutcome .ok) := by
  have htarget : zextAddr nnn = s.pc := BitVec.eq_of_toNat_eq ((zextAddr_toNat nnn).trans hpc.symm)
  change complete (s.setPc (zextAddr nnn)) = complete s
  rw [htarget]
  rfl

/-- Whether a run has ended does not depend on the value the latest step returned (R240). -/
theorem Ended.setOutcome {s : State} (h : Ended s) (o : StepOutcome) : Ended (s.setOutcome o) := h

/-- Settles O58: an ended run fetches the jump to its own address, and that jump completes where it began. -/
theorem endedRunStaysEnded : Obligations.EndedRunStaysEnded := by
  intro s hended
  have ⟨hawait, nnn, hpc, hfetch⟩ := hended
  have hdecode : decodeWord (encode (.jp nnn)) = .ok (.jp nnn) := decodeWord_encode (.jp nnn) rfl
  have hstep : step s = .next (s.setOutcome .ok) :=
    (step_of_decoded s _ _ hawait hfetch hdecode).trans (exec_jp_advancePc_of_pc hpc)
  exact ⟨_, hstep, rfl, hended.setOutcome .ok⟩

end Sys2Proof.Machine
